-- ==== Sys2Proof/Word.lean ====
section
/-! DEFINITION. The bit-vector types of CORE: bytes, 32-bit registers, 128-bit cipher blocks (00_scope.md R8, R10). -/

namespace Sys2Proof

/-- An 8-bit byte; bit 0 is the least significant (R8, R10). -/
abbrev Byte := BitVec 8

/-- A 32-bit register or command word (R8). -/
abbrev Word := BitVec 32

/-- A 16-byte block as the big-endian 128-bit number of R170: byte 0 is the most significant. -/
abbrev Block := BitVec 128

end Sys2Proof
end

