-- ==== Sys2Proof/Machine/Bytes.lean ====
section
/-! DEFINITION. Byte strings (00_scope.md R11): big-endian numbers, blocks as 16 bytes, XOR. -/

namespace Sys2Proof.Machine

/-- `be32(n)` for `n < 2^32`: most-significant byte first (R11). -/
def be32 (n : Nat) : List Byte :=
  [BitVec.ofNat 8 (n / 2 ^ 24), BitVec.ofNat 8 (n / 2 ^ 16), BitVec.ofNat 8 (n / 2 ^ 8), BitVec.ofNat 8 n]

/-- `be64(n)` for `n < 2^64` (R11). -/
def be64 (n : Nat) : List Byte := be32 (n / 2 ^ 32) ++ be32 n

/-- The number a big-endian byte string spells; on four bytes the inverse of `be32` (R11). -/
def unbe32 (s : List Byte) : Nat := s.foldl (fun n b => 256 * n + b.toNat) 0

/-- `s[a : a+n]`, the slice of `n` bytes from index `a` (R11). -/
def slice (s : List Byte) (a n : Nat) : List Byte := (s.drop a).take n

/-- Byte `k` of a block, byte 0 the most significant (R170). -/
def blockByte (X : Block) (k : Nat) : Byte := (X >>> (8 * (15 - k))).setWidth 8

/-- The 16 bytes of a block in order. -/
def blockBytes (X : Block) : List Byte := (List.range 16).map (blockByte X)

/-- The block whose bytes are the first 16 of `s`. -/
def blockOfBytes (s : List Byte) : Block :=
  (s.take 16).foldl (fun X b => (X <<< 8) ||| b.setWidth 128) 0

/-- `n` zero bytes. -/
def zeroBytes (n : Nat) : List Byte := List.replicate n 0

/-- Byte-wise XOR; the result is as long as the shorter string. -/
def xorBytes (s t : List Byte) : List Byte := List.zipWith (· ^^^ ·) s t

end Sys2Proof.Machine
end

