-- ==== Sys2Proof/Machine/Aes.lean ====
section
/-! DEFINITION. The AES-256 forward cipher (40_aead_primitives.md R161 to R166). -/

namespace Sys2Proof.Machine

/-- Multiplication by `x` modulo `x^8 + x^4 + x^3 + x + 1` (R161). -/
def xtime (b : Byte) : Byte := if b.msb then (b <<< 1) ^^^ 0x1B#8 else b <<< 1

/-- The product over the low `n` bits of `b`, `a` already multiplied as far as needed. -/
def gf8MulLoop : Nat → Byte → Byte → Byte
  | 0, _, _ => 0
  | n + 1, a, b => (if b.getLsbD 0 then a else 0) ^^^ gf8MulLoop n (xtime a) (b >>> 1)

/-- The product in GF(2^8): the XOR over the set bits `j` of `b` of `xtime^j(a)` (R161). -/
def gf8Mul (a b : Byte) : Byte := gf8MulLoop 8 a b

/-- The S-box table (R163), a row per high nibble. -/
def sboxLow : List (List Byte) :=
  [[0x63, 0x7c, 0x77, 0x7b, 0xf2, 0x6b, 0x6f, 0xc5, 0x30, 0x01, 0x67, 0x2b, 0xfe, 0xd7, 0xab, 0x76],
   [0xca, 0x82, 0xc9, 0x7d, 0xfa, 0x59, 0x47, 0xf0, 0xad, 0xd4, 0xa2, 0xaf, 0x9c, 0xa4, 0x72, 0xc0],
   [0xb7, 0xfd, 0x93, 0x26, 0x36, 0x3f, 0xf7, 0xcc, 0x34, 0xa5, 0xe5, 0xf1, 0x71, 0xd8, 0x31, 0x15],
   [0x04, 0xc7, 0x23, 0xc3, 0x18, 0x96, 0x05, 0x9a, 0x07, 0x12, 0x80, 0xe2, 0xeb, 0x27, 0xb2, 0x75],
   [0x09, 0x83, 0x2c, 0x1a, 0x1b, 0x6e, 0x5a, 0xa0, 0x52, 0x3b, 0xd6, 0xb3, 0x29, 0xe3, 0x2f, 0x84],
   [0x53, 0xd1, 0x00, 0xed, 0x20, 0xfc, 0xb1, 0x5b, 0x6a, 0xcb, 0xbe, 0x39, 0x4a, 0x4c, 0x58, 0xcf],
   [0xd0, 0xef, 0xaa, 0xfb, 0x43, 0x4d, 0x33, 0x85, 0x45, 0xf9, 0x02, 0x7f, 0x50, 0x3c, 0x9f, 0xa8],
   [0x51, 0xa3, 0x40, 0x8f, 0x92, 0x9d, 0x38, 0xf5, 0xbc, 0xb6, 0xda, 0x21, 0x10, 0xff, 0xf3, 0xd2]]

/-- The S-box rows for high nibbles 8 to f (R163). -/
def sboxHigh : List (List Byte) :=
  [[0xcd, 0x0c, 0x13, 0xec, 0x5f, 0x97, 0x44, 0x17, 0xc4, 0xa7, 0x7e, 0x3d, 0x64, 0x5d, 0x19, 0x73],
   [0x60, 0x81, 0x4f, 0xdc, 0x22, 0x2a, 0x90, 0x88, 0x46, 0xee, 0xb8, 0x14, 0xde, 0x5e, 0x0b, 0xdb],
   [0xe0, 0x32, 0x3a, 0x0a, 0x49, 0x06, 0x24, 0x5c, 0xc2, 0xd3, 0xac, 0x62, 0x91, 0x95, 0xe4, 0x79],
   [0xe7, 0xc8, 0x37, 0x6d, 0x8d, 0xd5, 0x4e, 0xa9, 0x6c, 0x56, 0xf4, 0xea, 0x65, 0x7a, 0xae, 0x08],
   [0xba, 0x78, 0x25, 0x2e, 0x1c, 0xa6, 0xb4, 0xc6, 0xe8, 0xdd, 0x74, 0x1f, 0x4b, 0xbd, 0x8b, 0x8a],
   [0x70, 0x3e, 0xb5, 0x66, 0x48, 0x03, 0xf6, 0x0e, 0x61, 0x35, 0x57, 0xb9, 0x86, 0xc1, 0x1d, 0x9e],
   [0xe1, 0xf8, 0x98, 0x11, 0x69, 0xd9, 0x8e, 0x94, 0x9b, 0x1e, 0x87, 0xe9, 0xce, 0x55, 0x28, 0xdf],
   [0x8c, 0xa1, 0x89, 0x0d, 0xbf, 0xe6, 0x42, 0x68, 0x41, 0x99, 0x2d, 0x0f, 0xb0, 0x54, 0xbb, 0x16]]

/-- `SBOX[b]` (R163): row = high nibble, column = low nibble. -/
def sbox (b : Byte) : Byte := ((sboxLow ++ sboxHigh).getD (b.toNat / 16) []).getD (b.toNat % 16) 0

/-- An AES word `[a0, a1, a2, a3]`, also one column of the state (R162). -/
structure AesWord where
  a0 : Byte
  a1 : Byte
  a2 : Byte
  a3 : Byte
  deriving DecidableEq, Repr

/-- The 4x4 state, column by column: `s[r][c]` is byte `a<r>` of column `c` (R162). A round key has the same shape. -/
structure AesState where
  c0 : AesWord
  c1 : AesWord
  c2 : AesWord
  c3 : AesWord
  deriving DecidableEq, Repr

/-- Word-wise XOR. -/
def xorWord (u v : AesWord) : AesWord := ⟨u.a0 ^^^ v.a0, u.a1 ^^^ v.a1, u.a2 ^^^ v.a2, u.a3 ^^^ v.a3⟩

/-- `RotWord` (R164). -/
def rotWord (w : AesWord) : AesWord := ⟨w.a1, w.a2, w.a3, w.a0⟩

/-- `SubWord` (R164); on a column of the state, SubBytes (R165). -/
def subWord (w : AesWord) : AesWord := ⟨sbox w.a0, sbox w.a1, sbox w.a2, sbox w.a3⟩

/-- `Rcon[1..7]` (R164). -/
def rcon (j : Nat) : Byte := [0x01, 0x02, 0x04, 0x08, 0x10, 0x20, 0x40].getD (j - 1) 0

/-- Word `i` of the key: `[K[4i], K[4i+1], K[4i+2], K[4i+3]]` (R164). -/
def keyWord (K : List Byte) (i : Nat) : AesWord :=
  ⟨K.getD (4 * i) 0, K.getD (4 * i + 1) 0, K.getD (4 * i + 2) 0, K.getD (4 * i + 3) 0⟩

/-- The word that XORs with `w[i-8]`, from `t = w[i-1]` (R164). -/
def keyTransform (i : Nat) (t : AesWord) : AesWord :=
  if i % 8 = 0 then xorWord (subWord (rotWord t)) ⟨rcon (i / 8), 0, 0, 0⟩
  else if i % 8 = 4 then subWord t
  else t

/-- `w[i]` from the words before it, newest first (R164). -/
def nextKeyWord (i : Nat) (older : List AesWord) : AesWord :=
  xorWord (older.getD 7 ⟨0, 0, 0, 0⟩) (keyTransform i (older.getD 0 ⟨0, 0, 0, 0⟩))

/-- `n` more words from `w[i]` on, newest first (R164). -/
def expandKey : Nat → Nat → List AesWord → List AesWord
  | 0, _, older => older
  | n + 1, i, older => expandKey n (i + 1) (nextKeyWord i older :: older)

/-- The 60 words `w[0..59]` (R164). -/
def keySchedule (K : List Byte) : List AesWord :=
  (expandKey 52 8 ((List.range 8).map (keyWord K)).reverse).reverse

/-- Words four by four: round key `n` is `w[4n..4n+3]` (R164). -/
def roundKeys : List AesWord → List AesState
  | w0 :: w1 :: w2 :: w3 :: rest => ⟨w0, w1, w2, w3⟩ :: roundKeys rest
  | _ => []

/-- SubBytes (R165). -/
def subBytes (s : AesState) : AesState := ⟨subWord s.c0, subWord s.c1, subWord s.c2, subWord s.c3⟩

/-- ShiftRows: `s'[r][c] = s[r][(c + r) mod 4]` (R165). -/
def shiftRows (s : AesState) : AesState :=
  ⟨⟨s.c0.a0, s.c1.a1, s.c2.a2, s.c3.a3⟩,
   ⟨s.c1.a0, s.c2.a1, s.c3.a2, s.c0.a3⟩,
   ⟨s.c2.a0, s.c3.a1, s.c0.a2, s.c1.a3⟩,
   ⟨s.c3.a0, s.c0.a1, s.c1.a2, s.c2.a3⟩⟩

/-- MixColumns on one column; `2 • a` and `3 • a` are products in GF(2^8) (R165). -/
def mixColumn (w : AesWord) : AesWord :=
  ⟨gf8Mul w.a0 2 ^^^ gf8Mul w.a1 3 ^^^ w.a2 ^^^ w.a3,
   w.a0 ^^^ gf8Mul w.a1 2 ^^^ gf8Mul w.a2 3 ^^^ w.a3,
   w.a0 ^^^ w.a1 ^^^ gf8Mul w.a2 2 ^^^ gf8Mul w.a3 3,
   gf8Mul w.a0 3 ^^^ w.a1 ^^^ w.a2 ^^^ gf8Mul w.a3 2⟩

/-- MixColumns (R165). -/
def mixColumns (s : AesState) : AesState := ⟨mixColumn s.c0, mixColumn s.c1, mixColumn s.c2, mixColumn s.c3⟩

/-- AddRoundKey (R165). -/
def addRoundKey (k s : AesState) : AesState :=
  ⟨xorWord s.c0 k.c0, xorWord s.c1 k.c1, xorWord s.c2 k.c2, xorWord s.c3 k.c3⟩

/-- The rounds after the first AddRoundKey, one per remaining round key; the last has no MixColumns (R166). -/
def aesRounds : List AesState → AesState → AesState
  | [], s => s
  | [k], s => addRoundKey k (shiftRows (subBytes s))
  | k :: k' :: ks, s => aesRounds (k' :: ks) (addRoundKey k (mixColumns (shiftRows (subBytes s))))

/-- Load column by column: `s[r][c] = in[r + 4c]` (R162). -/
def loadState (X : Block) : AesState :=
  ⟨⟨blockByte X 0, blockByte X 1, blockByte X 2, blockByte X 3⟩,
   ⟨blockByte X 4, blockByte X 5, blockByte X 6, blockByte X 7⟩,
   ⟨blockByte X 8, blockByte X 9, blockByte X 10, blockByte X 11⟩,
   ⟨blockByte X 12, blockByte X 13, blockByte X 14, blockByte X 15⟩⟩

/-- The output block: `out[r + 4c] = s[r][c]` (R162). -/
def unloadState (s : AesState) : Block :=
  blockOfBytes
    [s.c0.a0, s.c0.a1, s.c0.a2, s.c0.a3, s.c1.a0, s.c1.a1, s.c1.a2, s.c1.a3,
     s.c2.a0, s.c2.a1, s.c2.a2, s.c2.a3, s.c3.a0, s.c3.a1, s.c3.a2, s.c3.a3]

/-- `AES256(K, in)` (R166): 14 rounds under the 15 round keys of a 32-byte key. -/
@[irreducible] def aes256 (K : List Byte) (X : Block) : Block :=
  match roundKeys (keySchedule K) with
  | [] => X
  | k0 :: ks => unloadState (aesRounds ks (addRoundKey k0 (loadState X)))

end Sys2Proof.Machine
end

