-- ==== Sys2Proof/Machine/Gcm.lean ====
section
/-! DEFINITION. GCM with a 96-bit IV and no associated data (40_aead_primitives.md R160, R170 to R176). -/

namespace Sys2Proof.Machine

/-- The constant `R = e1 00 .. 00` (R171). -/
def gcmR : Block := 0xe1#128 <<< 120

/-- One step of the product for bit `i` of `X`: the pair is `(Z, V)` (R171). -/
def gf128Step (X : Block) (zv : Block × Block) (i : Nat) : Block × Block :=
  (if X.getMsbD i then zv.1 ^^^ zv.2 else zv.1,
   if zv.2.getLsbD 0 then (zv.2 >>> 1) ^^^ gcmR else zv.2 >>> 1)

/-- The product `X · Y` in GF(2^128) (R170, R171). -/
@[irreducible] def gf128Mul (X Y : Block) : Block := ((List.range 128).foldl (gf128Step X) (0, Y)).1

/-- `inc32(B)`: bytes 12..15 count up modulo 2^32, bytes 0..11 stay (R172). -/
def inc32 (B : Block) : Block := B.extractLsb' 32 96 ++ (B.extractLsb' 0 32 + 1#32)

/-- GCTR over `n` blocks from counter block `cb`; the last block uses the leading bytes of the keystream (R173). -/
def gctrBlocks (K : List Byte) : Nat → Block → List Byte → List Byte
  | 0, _, _ => []
  | n + 1, cb, X => xorBytes (X.take 16) (blockBytes (aes256 K cb)) ++ gctrBlocks K n (inc32 cb) (X.drop 16)

/-- `GCTR(K, ICB, X)` (R173). -/
def gctr (K : List Byte) (icb : Block) (X : List Byte) : List Byte := gctrBlocks K ((X.length + 15) / 16) icb X

/-- The first `n` 16-byte blocks of a byte string. -/
def blocksOf : Nat → List Byte → List Block
  | 0, _ => []
  | n + 1, X => blockOfBytes X :: blocksOf n (X.drop 16)

/-- `GHASH(H, X)` for `X` of a length that is a multiple of 16 (R174). -/
def ghash (H : Block) (X : List Byte) : Block :=
  (blocksOf (X.length / 16) X).foldl (fun Y B => gf128Mul (Y ^^^ B) H) 0

/-- `J0 = IV || 00 00 00 01` (R175). -/
def gcmJ0 (iv : List Byte) : Block := blockOfBytes (iv ++ [0, 0, 0, 1])

/-- The GHASH input: `C`, padding to a block, `be64(0)`, `be64(8*len(C))` (R175). -/
def ghashInput (C : List Byte) : List Byte :=
  C ++ zeroBytes ((16 - C.length % 16) % 16) ++ be64 0 ++ be64 (8 * C.length)

/-- The tag over a ciphertext: `AES256(K, J0) xor GHASH(H, ..)` with `H = AES256(K, 0)`, all 16 bytes (R175, R176). -/
def gcmTag (K iv C : List Byte) : List Byte :=
  blockBytes (aes256 K (gcmJ0 iv) ^^^ ghash (aes256 K 0) (ghashInput C))

/-- `GCM_AE(K, IV, P) = (C, T)` (R175); this is `Seal` of R160. -/
def gcmAE (K iv P : List Byte) : List Byte × List Byte :=
  let C := gctr K (inc32 (gcmJ0 iv)) P
  (C, gcmTag K iv C)

/-- `GCM_AD(K, IV, C, T)`: the plaintext, or `none` for AuthenticationFailed; the tag is checked first (R176). -/
def gcmAD (K iv C T : List Byte) : Option (List Byte) :=
  if gcmTag K iv C = T then some (gctr K (inc32 (gcmJ0 iv)) C) else none

/-- CipherEnvelope `IV || authTag || ciphertext` made by sealing `P` (R130). -/
def sealEnvelope (K iv P : List Byte) : List Byte := iv ++ (gcmAE K iv P).2 ++ (gcmAE K iv P).1

/-- Open an envelope of at least 28 bytes: `IV = [0:12]`, `authTag = [12:28]`, `ciphertext = [28:]` (R131, R176). -/
def openEnvelope (K env : List Byte) : Option (List Byte) :=
  gcmAD K (env.take 12) (env.drop 28) (slice env 12 16)

end Sys2Proof.Machine
end

