-- ==== Sys2Proof/Machine/BitPack.lean ====
section
/-! DEFINITION. Bit packing, length-prefix framing and bit-plane indexing (42_bitpack_framing.md). -/

namespace Sys2Proof.Machine

/-- The bits of one byte, most-significant first (R81, R220). -/
def byteBits (b : Byte) : List Bool := (List.range 8).map fun j => b.getLsbD (7 - j)

/-- `Bits(s)`: `b_{8k+j} = s[k][7-j]` (R220). -/
def bits (s : List Byte) : List Bool := s.flatMap byteBits

/-- The byte whose bits, most-significant first, are given: the sum of `b_j * 2^(7-j)` (R221). -/
def byteOfBits (b0 b1 b2 b3 b4 b5 b6 b7 : Bool) : Byte :=
  BitVec.ofNat 8 (128 * b0.toNat + 64 * b1.toNat + 32 * b2.toNat + 16 * b3.toNat + 8 * b4.toNat + 4 * b5.toNat
    + 2 * b6.toNat + b7.toNat)

/-- `Bytes(b)`, the inverse of `Bits` on sequences of a length that is a multiple of 8 (R221). -/
def bytes : List Bool → List Byte
  | b0 :: b1 :: b2 :: b3 :: b4 :: b5 :: b6 :: b7 :: rest => byteOfBits b0 b1 b2 b3 b4 b5 b6 b7 :: bytes rest
  | _ => []

/-- `Frame(p) = be32(len(p)) || p` (R222). -/
def frame (p : List Byte) : List Byte := be32 p.length ++ p

/-- `TotalBits` of a payload of `len` bytes (R222). -/
def totalBits (len : Nat) : Nat := 32 + 8 * len

/-- `Capacity(W, H) = 3*W*H` bits, over the naturals (R223, R228). -/
def capacity (W H : Nat) : Nat := 3 * W * H

/-- `4*W*H`, the size of a pixel buffer in bytes (R133). -/
def imageBytes (W H : Nat) : Nat := 4 * W * H

/-- `BitIndexToSubchannel(i) = (pixel, channel)` (R224). -/
def bitIndexToSubchannel (i : Nat) : Nat × Nat := (i / 3, i % 3)

/-- `SubchannelToBitIndex(pixel, channel)`, the inverse; channel 3 (alpha) has no bit index (R224). -/
def subchannelToBitIndex (pixel channel : Nat) : Option Nat :=
  if channel < 3 then some (3 * pixel + channel) else none

/-- `Off(i)`, the byte offset of bit index `i` inside a pixel buffer (R224, R134). -/
def off (i : Nat) : Nat := 4 * (bitIndexToSubchannel i).1 + (bitIndexToSubchannel i).2

/-- The bit index carried by the byte at offset `o`, if any: byte `o` is channel `o mod 4` of pixel `o div 4` (R133). -/
def bitIndexAt (o : Nat) : Option Nat := subchannelToBitIndex (o / 4) (o % 4)

/-- Replace bit 0 of a byte: `(old and 0xFE) or bit` (R85, R225). -/
def setLowBit (b : Byte) (v : Bool) : Byte := (b &&& 0xFE#8) ||| (BitVec.ofBool v).setWidth 8

/-- The byte at offset `o` after embedding (R225). -/
def embedByte (bs : List Bool) (o : Nat) (b : Byte) : Byte :=
  match bitIndexAt o with
  | some i => match bs[i]? with
    | some v => setLowBit b v
    | none => b
  | none => b

/-- `EmbedBits(px, b)` (R225). -/
def embedBits (px : List Byte) (bs : List Bool) : List Byte := px.mapIdx (embedByte bs)

/-- `ReadBits(px, start, count)`: bit 0 of the bytes at `Off(start + k)` (R226). -/
def readBits (px : List Byte) (start count : Nat) : List Bool :=
  (List.range count).map fun k => (px.getD (off (start + k)) 0).getLsbD 0

/-- `PrefixOf(px)` (R227). -/
def prefixOf (px : List Byte) : Nat := unbe32 (bytes (readBits px 0 32))

/-- `Bytes(ReadBits(px, 32, 8*N))`, the payload of `n` bytes after the prefix (R227, R241). -/
def payloadOf (px : List Byte) (n : Nat) : List Byte := bytes (readBits px 32 (8 * n))

/-- `Unframe(px)` (R227). -/
def unframe (px : List Byte) : List Byte := payloadOf px (prefixOf px)

end Sys2Proof.Machine
end

