-- ==== Sys2Proof/Config.lean ====
section
/-! DEFINITION. What an instance of CORE fixes before it runs (00_scope.md R6, R7, R9) and the values the spec leaves free. -/

namespace Sys2Proof

/-- What "character" means in the secret-length check (R7 SECRET_LEN_UNIT, R181). -/
inductive LenUnit where
  | codepoints
  | bytes
  | utf16units
  deriving DecidableEq, Repr

/-- The parameters of an instance that are plain data (R7). `step` has no argument for them, so State carries them
and no step writes them (log entry 1, DESIGN CHOICE, safe). -/
structure Params where
  /-- MEM_BYTES, the size of MEM in bytes. -/
  memBytes : Nat
  /-- SECRET_LEN_UNIT. -/
  secretLenUnit : LenUnit
  deriving DecidableEq, Repr

namespace Config

/-- IV_LEN (R6). -/
abbrev ivLen : Nat := 12
/-- TAG_LEN (R6). -/
abbrev tagLen : Nat := 16
/-- KEY_LEN (R6). -/
abbrev keyLen : Nat := 32
/-- ENV_OVERHEAD = IV_LEN + TAG_LEN (R6). -/
abbrev envOverhead : Nat := 28
/-- SECRET_MIN (R6). -/
abbrev secretMin : Nat := 32

/-- KDF_FN (R9, R180, U1): a total function of the secret's bytes that returns exactly 32 bytes. Nothing else is
known of it (log entry 7, a free value, safe). -/
opaque kdfFn : List Byte → Vector Byte 32

/-- The entropy port's answers (R182, U6): byte `k` of all the bytes the port ever hands out, unknown to every proof.
`State.entropyPos` says which comes next (log entry 4, a free value, safe). -/
opaque entropyByte : Nat → Byte

/-- The MEM bytes the spec calls unspecified: what a reset leaves in the output ranges of the command it interrupts (R60,
R300, U2), and what a host access before the synchronising STATUS read returns or leaves (R93). Unknown to every proof;
`State.freePos` says which come next (log entries 5 and 20, a free value, safe). -/
opaque freeByte : Nat → Byte

/-- Which of the ten codes of R260 a spoiled result shows (R93, R16), unknown to every proof (log entry 20, a free value,
safe). -/
opaque freeCode : Nat → Fin 10

/-- The OUT_LEN a spoiled result shows, before its bound is taken (R93, R16, R50), unknown to every proof (log entry 20, a
free value, safe). -/
opaque freeLen : Nat → Nat

end Config
end Sys2Proof
end

