-- ==== Sys2Proof/Machine/State.lean ====
section
/-! DEFINITION. The state of CORE as plain data (10_state.md), the host's moves (30_encoding.md R138, 70 R306), the error
names (60 R260), the reasons a step can stop, and the state after reset (R60). -/

namespace Sys2Proof.Machine

/-- The ten operand registers by name (R30). -/
inductive Reg where
  | srcAddr
  | srcLen
  | dstAddr
  | secAddr
  | secLen
  | imgAddr
  | imgOutAddr
  | imgW
  | imgH
  | imgFmt
  deriving DecidableEq, Repr

/-- The register's number: `x[index]` (R30). -/
def Reg.index : Reg → Fin 10
  | .srcAddr => 0
  | .srcLen => 1
  | .dstAddr => 2
  | .secAddr => 3
  | .secLen => 4
  | .imgAddr => 5
  | .imgOutAddr => 6
  | .imgW => 7
  | .imgH => 8
  | .imgFmt => 9

/-- STATUS (R47), by its fields; the reserved bits 7:2 and 31:16 read 0 and are not stored. -/
structure Status where
  /-- Bit 0. -/
  busy : Bool
  /-- Bit 1. -/
  done : Bool
  /-- Bits 15:8, an error code of R260. -/
  err : Byte
  deriving DecidableEq, Repr

/-- CTRL (R48), by its fields; bits 31:2 read 0 and are not stored. -/
structure Ctrl where
  /-- IE_DONE, bit 0. -/
  ieDone : Bool
  /-- IE_ERR, bit 1. -/
  ieErr : Bool
  deriving DecidableEq, Repr

/-- GATE (R49), by its fields; bits 31:2 read 0 and are not stored. -/
structure Gate where
  /-- EN, bit 0. -/
  en : Bool
  /-- VERIFIED, bit 1. -/
  verified : Bool
  deriving DecidableEq, Repr

/-- The typed failures a command can report (R260). -/
inductive Error where
  | invalidSecret
  | authenticationFailed
  | payloadTooLarge
  | invalidStegoPayload
  | unsupportedImageFormat
  | malformedEnvelope
  | illegalCommand
  | badOperand
  | accessDenied
  deriving DecidableEq, Repr

/-- MEM (R55): address and byte pairs, addresses rising, an unlisted address reads 0 (log entry 2). -/
abbrev Memory := List Host.Cell

/-- A range of MEM: base address and length in bytes. -/
structure Range where
  base : Nat
  len : Nat
  deriving DecidableEq, Repr

/-- One host operation on the CORE's ports (R138, R276, R300, R306). -/
inductive HostOp where
  /-- `wr REG, v` at a register-space offset. -/
  | wr (offset : Byte) (v : Word)
  /-- `rd REG` at a register-space offset. -/
  | rd (offset : Byte)
  /-- `ldm a, bytes`: write bytes to MEM from address `a` up. -/
  | ldm (a : Word) (bytes : List Byte)
  /-- `stm a, n`: read `n` bytes of MEM from address `a`. -/
  | stm (a : Word) (n : Nat)
  /-- Sample the interrupt line. -/
  | sampleIrq
  /-- Assert and release `rst`. -/
  | rst
  deriving DecidableEq, Repr

/-- Which agent moves (R14): the host with an operation, or the engine. -/
inductive Turn where
  | engine
  | host (op : HostOp)
  deriving DecidableEq, Repr

/-- What a host read returned. -/
inductive Answer where
  | word (v : Word)
  | bytes (s : List Byte)
  | line (level : Bool)
  deriving DecidableEq, Repr

/-- Reasons the machine stops with a fault. -/
inductive Fault where
  /-- A host `ldm` or `stm` names an address at or above MEM_BYTES, which does not exist (R55, R88). Raised by
  `hostTurn` (log entry 12). Safe: the model stops where the spec gives the access no meaning. -/
  | outsideMem
  deriving DecidableEq, Repr

/-- Reasons a step has no meaning. -/
inductive Refusal where
  /-- An instruction that has no meaning in the model yet; raised by `exec` only. Safe. -/
  | notModelled (mnemonic : String)
  /-- A host read or write of MEM while BUSY = 1: unspecified, treated as refuse (R93, R310, U3). Raised by `hostTurn`.
  Safe: nothing is proved about a host that breaks the duty. -/
  | memWhileBusy
  /-- A register access at an offset that is not a multiple of 4: unspecified, treated as refuse (R84, U5). Raised by
  `hostTurn`. Safe: nothing is proved about a host that breaks the duty. -/
  | registerAccessShape
  deriving DecidableEq, Repr

/-- The whole state. The fields down to `mem` are the spec's; `params` are its parameters (R7, R15); the last six are the
model's own (log entries 4, 5, 6, 20), of which `synced` and `results` hold the window R93(c) speaks of. -/
structure State where
  /-- Operand registers `x[0]` .. `x[9]` (R30). -/
  x : Vector Word 10
  /-- STATUS (R47). -/
  status : Status
  /-- CTRL (R48). -/
  ctrl : Ctrl
  /-- GATE (R49). -/
  gate : Gate
  /-- OUT_LEN (R50). -/
  outLen : Word
  /-- The hidden latch CUR_CMD (R41). -/
  curCmd : Word
  /-- MEM (R55). -/
  mem : Memory
  /-- The parameters of this instance (R7); never written. -/
  params : Params
  /-- The host has read STATUS with BUSY = 0 since its last accepted CMD write, or has issued none since reset (R16, R93). -/
  synced : Bool
  /-- The output ranges (R90), as far as they lie in MEM, of every command accepted since the host was last `synced`: the MEM
  part of the results (R16) whose window is open. -/
  results : List Range
  /-- How many bytes the entropy port has handed out: the model's counter for `Config.entropyByte`. -/
  entropyPos : Nat
  /-- The model's counter for `Config.freeByte`, `Config.freeCode` and `Config.freeLen`. -/
  freePos : Nat
  /-- Whose turn is next, oldest first: the model's schedule of the agents (R14). -/
  turns : List Turn
  /-- What the host's reads have returned, oldest first. -/
  answers : List Answer
  deriving DecidableEq, Repr

/-- Operand register by name (R12: "also written by its name"). -/
def State.reg (s : State) (r : Reg) : Word := s.x[r.index]

/-- The machine right after power-on reset (R60): every register 0, the CORE idle. MEM lists nothing (log entry 2),
CUR_CMD is 0 (log entry 3), the parameters are those of log entry 1,
and MEM is the host's, as no command is outstanding (R302). -/
def State.reset : State where
  x := Vector.replicate 10 0
  status := { busy := false, done := false, err := 0 }
  ctrl := { ieDone := false, ieErr := false }
  gate := { en := false, verified := false }
  outLen := 0
  curCmd := 0
  mem := []
  params := { memBytes := 65536, secretLenUnit := .codepoints }
  synced := true
  results := []
  entropyPos := 0
  freePos := 0
  turns := []
  answers := []

/-- Power-on with arbitrary MEM contents and parameters (R60, R301, U2: "the initial MEM is an arbitrary byte array"). -/
def State.powerOn (p : Params) (m : Memory) : State := { State.reset with params := p, mem := m }

end Sys2Proof.Machine
end

