-- ==== Sys2Proof/Machine/Flags.lean ====
section
/-! DEFINITION. The error codes (60_exceptions.md R260), STATUS, CTRL and GATE as words (R47 to R49), and `irq` (R276).
These are the only flags the CORE has (R52). -/

namespace Sys2Proof.Machine

/-- The code written to STATUS.ERR (R260). -/
def errorCode : Error → Byte
  | .invalidSecret => 0x01
  | .authenticationFailed => 0x02
  | .payloadTooLarge => 0x03
  | .invalidStegoPayload => 0x04
  | .unsupportedImageFormat => 0x05
  | .malformedEnvelope => 0x10
  | .illegalCommand => 0x11
  | .badOperand => 0x12
  | .accessDenied => 0x13

/-- Every value STATUS.ERR can hold (R260: "Every other 8-bit value is never written"). -/
def errorCodes : List Byte := [0x00, 0x01, 0x02, 0x03, 0x04, 0x05, 0x10, 0x11, 0x12, 0x13]

/-- STATUS as the host reads it: BUSY bit 0, DONE bit 1, ERR bits 15:8, the rest 0 (R47). -/
def statusWord (t : Status) : Word :=
  0#16 ++ t.err ++ 0#6 ++ BitVec.ofBool t.done ++ BitVec.ofBool t.busy

/-- CTRL as the host reads it (R48). -/
def ctrlWord (c : Ctrl) : Word := 0#30 ++ BitVec.ofBool c.ieErr ++ BitVec.ofBool c.ieDone

/-- The part of a written word that CTRL keeps (R48: bits 31:2 are ignored). -/
def ctrlOfWord (w : Word) : Ctrl := { ieDone := w.getLsbD 0, ieErr := w.getLsbD 1 }

/-- GATE as the host reads it (R49). -/
def gateWord (g : Gate) : Word := 0#30 ++ BitVec.ofBool g.verified ++ BitVec.ofBool g.en

/-- The part of a written word that GATE keeps (R49: bits 31:2 are ignored). -/
def gateOfWord (w : Word) : Gate := { en := w.getLsbD 0, verified := w.getLsbD 1 }

/-- The interrupt line, a combinational function of CTRL and STATUS (R48, R276). -/
def irq (s : State) : Bool :=
  (s.ctrl.ieDone && s.status.done) || (s.ctrl.ieErr && s.status.err != 0)

/-- The gate is shut: EN = 1 and VERIFIED = 0 (R275). -/
def gateShut (s : State) : Bool := s.gate.en && !s.gate.verified

end Sys2Proof.Machine
end

