-- ==== Sys2Proof/Machine/Ops.lean ====
section
/-! DEFINITION. The named operations over memory, entropy and registers, and the completion step that ends every command,
with or without an error (60_exceptions.md R270). -/

namespace Sys2Proof.Machine

/-- The byte an address that memory does not list reads as: 0 (log entry 2, DESIGN CHOICE; the spec leaves MEM after
power-on unspecified, R60, U2). -/
def unlistedByte : Byte := 0

/-- One byte of MEM (R55, R87: no side effect). -/
def readByte : Memory → Nat → Byte
  | [], _ => unlistedByte
  | (k, b) :: m, a => if a = k then b else readByte m a

/-- Write one byte of MEM, keeping the canonical form. -/
def writeByte : Memory → Nat → Byte → Memory
  | [], a, v => if v = unlistedByte then [] else [(a, v)]
  | (k, b) :: m, a, v =>
    if a < k then (if v = unlistedByte then (k, b) :: m else (a, v) :: (k, b) :: m)
    else if a = k then (if v = unlistedByte then m else (a, v) :: m)
    else (k, b) :: writeByte m a v

/-- Canonical from address `lo` up: addresses strictly rising, no entry equal to what an unlisted address reads as. -/
def memWfFrom : Nat → Memory → Bool
  | _, [] => true
  | lo, (k, b) :: m => lo ≤ k && b != unlistedByte && memWfFrom (k + 1) m

/-- Memory is in its one canonical form. -/
def memWf (m : Memory) : Bool := memWfFrom 0 m

/-- Every listed address exists: it is below MEM_BYTES (R55, R88). -/
def memBelow (bound : Nat) (m : Memory) : Bool := m.all fun c => c.1 < bound

/-- `MemRead(a, n)`: the bytes `MEM[a] .. MEM[a+n-1]` (R12). -/
def memRead (m : Memory) (a n : Nat) : List Byte := (List.range n).map fun k => readByte m (a + k)

/-- `MemWrite(a, s)`: `MEM[a+k] <- s[k]` (R12). -/
def memWrite : Memory → Nat → List Byte → Memory
  | m, _, [] => m
  | m, a, b :: s => memWrite (writeByte m a b) (a + 1) s

/-- Apply several `MemWrite`s in order. -/
def memWriteAll (m : Memory) (ws : List (Nat × List Byte)) : Memory :=
  ws.foldl (fun m w => memWrite m w.1 w.2) m

/-- `draw(n)` (R182): the next `n` bytes of the entropy port, after the first `skip` of this command. -/
@[irreducible] def drawBytes (s : State) (skip n : Nat) : List Byte :=
  (List.range n).map fun k => Config.entropyByte (s.entropyPos + skip + k)

/-- What a command that succeeds does (R13, R270): its MEM writes, its OUT_LEN, and how many bytes it drew. -/
structure Effect where
  writes : List (Nat × List Byte)
  outLen : Nat
  drawn : Nat
  deriving DecidableEq, Repr

/-- A command's rule evaluated on the pre-state: `fail <Error>`, or an effect (R13). -/
abbrev Verdict := Except Error Effect

/-- `fail E` at the completion step (R270, R271): no MEM write, no draw, OUT_LEN 0, the code in STATUS.ERR. This is all
that taking an exception is on the CORE: control goes nowhere and nothing is saved. -/
def completeFail (s : State) (e : Error) : State :=
  { s with
    status := { busy := false, done := true, err := errorCode e }
    outLen := 0 }

/-- Success at the completion step (R270): every MEM write, OUT_LEN, STATUS.ERR 0. -/
def completeOk (s : State) (f : Effect) : State :=
  { s with
    status := { busy := false, done := true, err := 0 }
    outLen := BitVec.ofNat 32 f.outLen
    mem := memWriteAll s.mem f.writes
    entropyPos := s.entropyPos + f.drawn }

/-- The completion step (R270). -/
def complete (s : State) (v : Verdict) : State :=
  match v with
  | .ok f => completeOk s f
  | .error e => completeFail s e

/-- Acknowledge: DONE and ERR are cleared, OUT_LEN stays (R47, R273). There is no other return from an error. -/
def acknowledge (s : State) : State :=
  { s with status := { s.status with done := false, err := 0 } }

/-- The host's write of operand register `i` (R12, R30, R32). -/
def setOperand (s : State) (i : Fin 10) (v : Word) : State := { s with x := s.x.set i v }

/-- The host gets an answer to a read. -/
def answer (s : State) (a : Answer) : State := { s with answers := s.answers ++ [a] }

end Sys2Proof.Machine
end

