-- ==== Sys2Proof/Syntax.lean ====
section
/-! DEFINITION. The six commands of CORE, one constructor per row of spec/opcode_table.json (30_encoding.md R124).
The command word carries no operand (R122), so no constructor has an argument. -/

namespace Sys2Proof

/-- A command of CORE (R124). -/
inductive Instr where
  /-- 0x01 ENCRYPT: seal a plaintext under a key derived from a secret (R200). -/
  | encrypt
  /-- 0x02 DECRYPT: open an envelope under a key derived from a secret (R201). -/
  | decrypt
  /-- 0x03 GENENC: seal a plaintext under a fresh random key and export the key (R202). -/
  | genenc
  /-- 0x04 DECRYPTK: open an envelope under a raw 32-byte key (R203). -/
  | decryptk
  /-- 0x05 EMBED: write a length-prefixed payload into the low bits of a pixel buffer (R240). -/
  | embed
  /-- 0x06 EXTRACT: read a length-prefixed payload from the low bits of a pixel buffer (R241). -/
  | extract
  deriving DecidableEq, Repr

end Sys2Proof
end

