-- ==== Sys2Proof/Machine/Operands.lean ====
section
/-! DEFINITION. Operand values, ranges and the range check of each command (10 R31, 20 R83, R89, R90). All sums are over the
naturals; no alignment is needed (R83, R228). -/

namespace Sys2Proof.Machine

/-- `Valid(a, n) := a + n ≤ MEM_BYTES` (R89). -/
abbrev rangeValid (s : State) (r : Range) : Prop := r.base + r.len ≤ s.params.memBytes

/-- `Disjoint(a, n, b, m)` (R89). -/
abbrev rangesDisjoint (r t : Range) : Prop :=
  r.len = 0 ∨ t.len = 0 ∨ r.base + r.len ≤ t.base ∨ t.base + t.len ≤ r.base

/-- The bytes of a range in the pre-state (R12, R13). -/
def readRange (s : State) (r : Range) : List Byte := memRead s.mem r.base r.len

/-- An operand register as a natural: the whole 32-bit value, unsigned (R122). -/
def opNat (s : State) (r : Reg) : Nat := (s.reg r).toNat

/-- The input byte string `(SRC_ADDR, SRC_LEN)` (R30). -/
def srcRange (s : State) : Range := ⟨opNat s .srcAddr, opNat s .srcLen⟩

/-- The secret or raw key `(SEC_ADDR, SEC_LEN)` (R30). -/
def secRange (s : State) : Range := ⟨opNat s .secAddr, opNat s .secLen⟩

/-- Where an envelope goes: `(DST_ADDR, 28 + SRC_LEN)` (R90, ENCRYPT and GENENC). -/
def sealedRange (s : State) : Range := ⟨opNat s .dstAddr, 28 + opNat s .srcLen⟩

/-- Where GENENC exports the key: `(SEC_ADDR, 32)` (R90). -/
def keyOutRange (s : State) : Range := ⟨opNat s .secAddr, 32⟩

/-- Where a plaintext goes: `(DST_ADDR, SRC_LEN - 28)`, length 0 if `SRC_LEN < 28` (R90, DECRYPT and DECRYPTK). -/
def openedRange (s : State) : Range := ⟨opNat s .dstAddr, opNat s .srcLen - 28⟩

/-- `4*IMG_W*IMG_H` (R133, R240, R241). -/
def imgBytes (s : State) : Nat := imageBytes (opNat s .imgW) (opNat s .imgH)

/-- `3*IMG_W*IMG_H` (R223). -/
def imgCapacity (s : State) : Nat := capacity (opNat s .imgW) (opNat s .imgH)

/-- The input pixel buffer (R90). -/
def imgRange (s : State) : Range := ⟨opNat s .imgAddr, imgBytes s⟩

/-- EMBED's output pixel buffer (R90). -/
def imgOutRange (s : State) : Range := ⟨opNat s .imgOutAddr, imgBytes s⟩

/-- EXTRACT's destination for a payload of `n` bytes (R90). -/
def extractedRange (s : State) (n : Nat) : Range := ⟨opNat s .dstAddr, n⟩

/-- RangeOK of ENCRYPT (R200 step 1). -/
abbrev encryptRangeOK (s : State) : Prop :=
  rangeValid s (srcRange s) ∧ rangeValid s (secRange s) ∧ rangeValid s (sealedRange s)
    ∧ 28 + opNat s .srcLen < 2 ^ 32
    ∧ rangesDisjoint (sealedRange s) (srcRange s) ∧ rangesDisjoint (sealedRange s) (secRange s)

/-- RangeOK of DECRYPT and DECRYPTK (R201 step 1, R203 step 1). -/
abbrev decryptRangeOK (s : State) : Prop :=
  rangeValid s (srcRange s) ∧ rangeValid s (secRange s) ∧ rangeValid s (openedRange s)
    ∧ rangesDisjoint (openedRange s) (srcRange s) ∧ rangesDisjoint (openedRange s) (secRange s)

/-- RangeOK of GENENC (R202 step 1). -/
abbrev genencRangeOK (s : State) : Prop :=
  rangeValid s (srcRange s) ∧ rangeValid s (sealedRange s) ∧ rangeValid s (keyOutRange s)
    ∧ 28 + opNat s .srcLen < 2 ^ 32
    ∧ rangesDisjoint (sealedRange s) (srcRange s) ∧ rangesDisjoint (keyOutRange s) (srcRange s)
    ∧ rangesDisjoint (sealedRange s) (keyOutRange s)

/-- RangeOK of EMBED (R240 step 2); `outlen < 2^32` is R90's, implied there by `MEM_BYTES < 2^32` (log
entry 13, DEDUCED). -/
abbrev embedRangeOK (s : State) : Prop :=
  rangeValid s (srcRange s) ∧ rangeValid s (imgRange s) ∧ rangeValid s (imgOutRange s)
    ∧ imgBytes s < 2 ^ 32
    ∧ rangesDisjoint (imgOutRange s) (srcRange s)
    ∧ (opNat s .imgOutAddr = opNat s .imgAddr ∨ rangesDisjoint (imgOutRange s) (imgRange s))

/-- The destination check of EXTRACT (R241 step 5). -/
abbrev extractDstOK (s : State) (n : Nat) : Prop :=
  rangeValid s (extractedRange s n) ∧ rangesDisjoint (extractedRange s n) (imgRange s)

/-- The output ranges of a command in a state (R90). EXTRACT's exists once its prefix is defined: the image lies in MEM
and has at least 32 bits (R227, R241). -/
def outputRanges (i : Instr) (s : State) : List Range :=
  match i with
  | .encrypt => [sealedRange s]
  | .decrypt => [openedRange s]
  | .genenc => [sealedRange s, keyOutRange s]
  | .decryptk => [openedRange s]
  | .embed => [imgOutRange s]
  | .extract =>
    if rangeValid s (imgRange s) ∧ 32 ≤ imgCapacity s then
      [extractedRange s (prefixOf (readRange s (imgRange s)))]
    else []

end Sys2Proof.Machine
end

