-- ==== Sys2Proof/Machine/Secret.lean ====
section
/-! DEFINITION. The secret-length check and key derivation (40_aead_primitives.md R180, R181). -/

namespace Sys2Proof.Machine

/-- Bytes that are not UTF-8 continuation bytes `10xxxxxx` (R181). -/
def codepointCount (s : List Byte) : Nat := s.countP fun b => b &&& 0xC0#8 != 0x80#8

/-- `CharCount(s)` in the configured unit (R181). -/
def charCount (u : LenUnit) (s : List Byte) : Nat :=
  match u with
  | .codepoints => codepointCount s
  | .bytes => s.length
  | .utf16units => codepointCount s + s.countP fun b => 0xF0 ≤ b.toNat

/-- `SecretOK(s)` (R181): at least 32 characters (R6). -/
def secretOK (u : LenUnit) (s : List Byte) : Bool := Config.secretMin ≤ charCount u s

/-- `KDF_FN(secret)` as a byte string of 32 bytes (R9, R180). -/
def deriveKey (secret : List Byte) : List Byte := (Config.kdfFn secret).toList

end Sys2Proof.Machine
end

