-- ==== Sys2Proof/Machine/Cipher.lean ====
section
/-! DEFINITION. The Cipher Layer commands ENCRYPT, DECRYPT, GENENC, DECRYPTK (41_cipher_commands.md R200 to R203). Checks stand
in the order of R268. -/

namespace Sys2Proof.Machine

/-- ENCRYPT's key: derived from the secret (R200 step 3). -/
def secretKey (s : State) : List Byte := deriveKey (readRange s (secRange s))

/-- ENCRYPT's rule on the pre-state (R200). -/
def encryptVerdict (s : State) : Verdict :=
  if ¬ encryptRangeOK s then .error .badOperand
  else if ¬ secretOK s.params.secretLenUnit (readRange s (secRange s)) then .error .invalidSecret
  else .ok {
    writes := [(opNat s .dstAddr, sealEnvelope (secretKey s) (drawBytes s 0 12) (readRange s (srcRange s)))]
    outLen := 28 + opNat s .srcLen
    drawn := 12 }

/-- ENCRYPT (R200): the engine's whole step for it. -/
def execEncrypt (s : State) : Host.Outcome State Fault Refusal := .next (complete s (encryptVerdict s))

/-- The last steps of DECRYPT and DECRYPTK: authenticate, then write the plaintext (R201 steps 6 and 7, R203 steps 4
and 5). -/
def openVerdict (s : State) (K : List Byte) : Verdict :=
  match openEnvelope K (readRange s (srcRange s)) with
  | none => .error .authenticationFailed
  | some p => .ok { writes := [(opNat s .dstAddr, p)], outLen := opNat s .srcLen - 28, drawn := 0 }

/-- DECRYPT's rule on the pre-state (R201). -/
def decryptVerdict (s : State) : Verdict :=
  if gateShut s then .error .accessDenied
  else if ¬ decryptRangeOK s then .error .badOperand
  else if ¬ secretOK s.params.secretLenUnit (readRange s (secRange s)) then .error .invalidSecret
  else if opNat s .srcLen < 28 then .error .malformedEnvelope
  else openVerdict s (secretKey s)

/-- DECRYPT (R201). -/
def execDecrypt (s : State) : Host.Outcome State Fault Refusal := .next (complete s (decryptVerdict s))

/-- GENENC's rule on the pre-state (R202): `draw(32)` for the key, then `draw(12)` for the IV (R182). -/
def genencVerdict (s : State) : Verdict :=
  if ¬ genencRangeOK s then .error .badOperand
  else .ok {
    writes := [(opNat s .dstAddr, sealEnvelope (drawBytes s 0 32) (drawBytes s 32 12) (readRange s (srcRange s))),
      (opNat s .secAddr, drawBytes s 0 32)]
    outLen := 28 + opNat s .srcLen
    drawn := 44 }

/-- GENENC (R202). -/
def execGenenc (s : State) : Host.Outcome State Fault Refusal := .next (complete s (genencVerdict s))

/-- DECRYPTK's rule on the pre-state (R203): the key is the 32 bytes at SEC_ADDR. -/
def decryptkVerdict (s : State) : Verdict :=
  if gateShut s then .error .accessDenied
  else if opNat s .secLen ≠ 32 ∨ ¬ decryptRangeOK s then .error .badOperand
  else if opNat s .srcLen < 28 then .error .malformedEnvelope
  else openVerdict s (memRead s.mem (opNat s .secAddr) 32)

/-- DECRYPTK (R203). -/
def execDecryptk (s : State) : Host.Outcome State Fault Refusal := .next (complete s (decryptkVerdict s))

end Sys2Proof.Machine
end

