-- ==== Sys2Proof/Machine/Stego.lean ====
section
/-! DEFINITION. The Stego Codec commands EMBED and EXTRACT (43_stego_commands.md R240, R241). Checks stand in the order of
R268. -/

namespace Sys2Proof.Machine

/-- The output image of EMBED: `EmbedBits(px, Bits(Frame(p)))` (R240 step 4). -/
def embeddedImage (s : State) : List Byte :=
  embedBits (readRange s (imgRange s)) (bits (frame (readRange s (srcRange s))))

/-- EMBED's rule on the pre-state (R240). -/
def embedVerdict (s : State) : Verdict :=
  if s.reg .imgFmt ≠ 0 then .error .unsupportedImageFormat
  else if ¬ embedRangeOK s then .error .badOperand
  else if totalBits (opNat s .srcLen) > imgCapacity s then .error .payloadTooLarge
  else .ok { writes := [(opNat s .imgOutAddr, embeddedImage s)], outLen := imgBytes s, drawn := 0 }

/-- EMBED (R240). -/
def execEmbed (s : State) : Host.Outcome State Fault Refusal := .next (complete s (embedVerdict s))

/-- The length prefix EXTRACT decodes (R241 step 4). -/
def extractLen (s : State) : Nat := prefixOf (readRange s (imgRange s))

/-- EXTRACT's rule on the pre-state (R241). -/
def extractVerdict (s : State) : Verdict :=
  if gateShut s then .error .accessDenied
  else if s.reg .imgFmt ≠ 0 then .error .unsupportedImageFormat
  else if ¬ rangeValid s (imgRange s) then .error .badOperand
  else if imgCapacity s < 32 then .error .invalidStegoPayload
  else if totalBits (extractLen s) > imgCapacity s then .error .invalidStegoPayload
  else if ¬ extractDstOK s (extractLen s) then .error .badOperand
  else .ok {
    writes := [(opNat s .dstAddr, payloadOf (readRange s (imgRange s)) (extractLen s))]
    outLen := extractLen s
    drawn := 0 }

/-- EXTRACT (R241). -/
def execExtract (s : State) : Host.Outcome State Fault Refusal := .next (complete s (extractVerdict s))

end Sys2Proof.Machine
end

