-- ==== Sys2Proof/Decode.lean ====
section
/-! DEFINITION. Decoding a command word (30_encoding.md R120 to R126), and the encoder written from the same table. -/

namespace Sys2Proof

/-- Why a word names no command. The engine reports each as `IllegalCommand` (R266). -/
inductive DecodeError where
  /-- One of bits 31:8 is set (R125). -/
  | reservedBits (field : BitVec 24)
  /-- OPC is 0x00 or 0x07..0xFF (R126). -/
  | illegalOpcode (opc : Byte)
  /-- The bytes are not one whole 32-bit word (R84, R120: there is one instruction length). -/
  | notOneWord (len : Nat)
  deriving DecidableEq, Repr

/-- Field OPC of format C, bits 7:0 (R120). -/
def opcField (w : Word) : Byte := w.extractLsb' 0 8

/-- Field ZERO of format C, bits 31:8 (R120). -/
def zeroField (w : Word) : BitVec 24 := w.extractLsb' 8 24

/-- The opcode map (R121, R124). -/
def instrOfOpc (opc : Byte) : Option Instr :=
  match opc.toNat with
  | 0x01 => some .encrypt
  | 0x02 => some .decrypt
  | 0x03 => some .genenc
  | 0x04 => some .decryptk
  | 0x05 => some .embed
  | 0x06 => some .extract
  | _ => none

/-- Decode, total on all 2^32 words (R121). -/
def decode (w : Word) : Except DecodeError Instr :=
  if zeroField w ≠ 0 then .error (.reservedBits (zeroField w))
  else
    match instrOfOpc (opcField w) with
    | some i => .ok i
    | none => .error (.illegalOpcode (opcField w))

/-- The opcode number of a command (R124). -/
def opcode : Instr → Byte
  | .encrypt => 0x01
  | .decrypt => 0x02
  | .genenc => 0x03
  | .decryptk => 0x04
  | .embed => 0x05
  | .extract => 0x06

/-- The command word: OPC in bits 7:0, bits 31:8 zero (R120, R124). -/
def encode (i : Instr) : Word := 0#24 ++ opcode i

/-- The byte lanes of a register word: lane `k` carries bits `8k+7 : 8k` (R82; log entry 17, DEDUCED). -/
def wordLanes (w : Word) : List Byte :=
  [w.extractLsb' 0 8, w.extractLsb' 8 8, w.extractLsb' 16 8, w.extractLsb' 24 8]

/-- Decode a list of byte lanes, lowest address first: exactly one whole word (R82, R84). -/
def decodeBytes : List Byte → Except DecodeError Instr
  | [b0, b1, b2, b3] => decode (b3 ++ b2 ++ b1 ++ b0)
  | bs => .error (.notOneWord bs.length)

/-- The instruction the decoder reads from an opcode-table row's word `w` of `nbits` bits (every bit above them 0). -/
def decodeTableWord (nbits w : Nat) : Option Instr :=
  match decodeBytes (wordLanes (BitVec.ofNat 32 (w % 2 ^ nbits))) with
  | .ok i => some i
  | .error _ => none

end Sys2Proof
end

