-- ==== Sys2Proof/Machine/HostBus.lean ====
section
/-! DEFINITION. The host's side of the CORE: the register map (10_state.md R45 to R51), the MEM window (R55), the interrupt line
(R276), the synchronisation window (R93) and reset (R60, R300). -/

namespace Sys2Proof.Machine

/-- What stands at a register-space offset (R45). -/
inductive RegSel where
  | cmd
  | status
  | ctrl
  | gate
  | outLen
  | operand (i : Fin 10)
  | reserved
  deriving DecidableEq, Repr

/-- The register map (R30, R45); `none` where the offset is not a multiple of 4 (R84). -/
def regAt (offset : Byte) : Option RegSel :=
  if offset.toNat % 4 ≠ 0 then none
  else
    match offset.toNat with
    | 0x00 => some .cmd
    | 0x04 => some .status
    | 0x08 => some .ctrl
    | 0x0C => some .gate
    | 0x10 => some .outLen
    | 0x20 => some (.operand 0)
    | 0x24 => some (.operand 1)
    | 0x28 => some (.operand 2)
    | 0x2C => some (.operand 3)
    | 0x30 => some (.operand 4)
    | 0x34 => some (.operand 5)
    | 0x38 => some (.operand 6)
    | 0x3C => some (.operand 7)
    | 0x40 => some (.operand 8)
    | 0x44 => some (.operand 9)
    | _ => some .reserved

/-- The value a host read returns, always allowed and with no side effect (R33, R45, R51, R87). -/
def readReg (s : State) : RegSel → Word
  | .cmd => 0
  | .status => statusWord s.status
  | .ctrl => ctrlWord s.ctrl
  | .gate => gateWord s.gate
  | .outLen => s.outLen
  | .operand i => s.x[i]
  | .reserved => 0

/-- The part of a range that lies in MEM. -/
def clipRange (bound : Nat) (r : Range) : Range := ⟨r.base, min r.len (bound - r.base)⟩

/-- The output ranges (R90), as far as they lie in MEM, of the command that the word `w` names; a word that names no command
has none (log entry 5). -/
def wordRanges (s : State) (w : Word) : List Range :=
  match decode w with
  | .ok i => (outputRanges i s).map (clipRange s.params.memBytes)
  | .error _ => []

/-- The ranges of the results whose window (R93(c)) is still open: none once the host has synchronised. -/
def openResults (s : State) : List Range := if s.synced then [] else s.results

/-- Acceptance of a command word while BUSY = 0 (R46): every word is accepted. It opens the window of R93(c), and no operand
register or MEM byte can change before the engine's step, so the command's output ranges are known here. A CMD write is no
STATUS read, so the windows of earlier commands stay open beside it (R94). -/
def acceptCommand (s : State) (w : Word) : State :=
  { s with
    curCmd := w
    status := { busy := true, done := false, err := 0 }
    outLen := 0
    synced := false
    results := openResults s ++ wordRanges s w }

/-- A host write while BUSY = 0 (R32, R46 to R51): a word to CMD is accepted, STATUS clears on bit 1 set, CTRL and GATE
keep their two bits, an operand register takes the word, everything else ignores it. -/
def writeRegIdle (s : State) (r : RegSel) (v : Word) : State :=
  match r with
  | .cmd => acceptCommand s v
  | .status => if v.getLsbD 1 then acknowledge s else s
  | .ctrl => { s with ctrl := ctrlOfWord v }
  | .gate => { s with gate := gateOfWord v }
  | .outLen => s
  | .operand i => setOperand s i v
  | .reserved => s

/-- A host write; while BUSY = 1 it is ignored (R33). -/
def writeReg (s : State) (r : RegSel) (v : Word) : State :=
  if s.status.busy then s else writeRegIdle s r v

/-- The ranges of MEM that a reset leaves unspecified: the output ranges (R90) of the running command, if one runs (R60,
R300). -/
def abandonedRanges (s : State) : List Range := if s.status.busy then wordRanges s s.curCmd else []

/-- `n` free bytes from counter `pos` on (R93, U2: "any value"). -/
def freeBytes (pos n : Nat) : List Byte := (List.range n).map fun k => Config.freeByte (pos + k)

/-- Overwrite ranges with free bytes, counting them; the pair is memory and counter (R60, R93, U2). -/
def scramble (mp : Memory × Nat) (r : Range) : Memory × Nat :=
  (memWrite mp.1 r.base (freeBytes mp.2 r.len), mp.2 + r.len)

/-- MEM and the counter after a reset (R60, R300, R301): only the output ranges of a running command change. -/
def resetMem (s : State) : Memory × Nat := (abandonedRanges s).foldl scramble (s.mem, s.freePos)

/-- A reset event (R60, R300; log entries 3, 5, 16): every register as in `State.reset`, the running command abandoned, MEM kept but for its
output ranges. Parameters, the entropy port's position and the host's side stay. -/
def resetCore (s : State) : State :=
  { State.reset with
    mem := (resetMem s).1
    params := s.params
    entropyPos := s.entropyPos
    freePos := (resetMem s).2
    turns := s.turns
    answers := s.answers }

/-- `n` bytes from address `a` exist in MEM (R55, R88); no byte is asked for if `n = 0`. -/
abbrev windowOK (s : State) (a : Word) (n : Nat) : Prop := n = 0 ∨ a.toNat + n ≤ s.params.memBytes

/-- A host read of STATUS that returns BUSY = 0 closes the window of R93(c) (R16, R94); no other read does anything (R87). -/
def noteRead (s : State) (r : RegSel) : State :=
  if r = .status ∧ s.status.busy = false then { s with synced := true } else s

/-- A host read of a register (R33). -/
def hostRead (s : State) (r : RegSel) : State := answer (noteRead s r) (.word (readReg s r))

/-- A host read of MEM with BUSY = 0 (R55, R138). Before the STATUS read that synchronises, the values read are unspecified
(R93(c), R310; log entry 20). -/
def hostLoad (s : State) (a : Word) (n : Nat) : State :=
  if s.synced then answer s (.bytes (memRead s.mem a.toNat n))
  else { answer s (.bytes (freeBytes s.freePos n)) with freePos := s.freePos + n }

/-- The ERR of a spoiled result: any code of R260, but no code where DONE has been acknowledged (R47: ERR ≠ 0 implies DONE). -/
def spoiledErr (s : State) : Byte := if s.status.done then errorCodes.getD (Config.freeCode s.freePos).val 0 else s.status.err

/-- The OUT_LEN of a spoiled result: 0 if the command shows an error, else any number up to MEM_BYTES (R50). -/
def spoiledLen (s : State) : Word :=
  if spoiledErr s = 0 then BitVec.ofNat 32 (Config.freeLen s.freePos % (s.params.memBytes + 1)) else 0

/-- The result of every command whose window is open becomes unspecified (R93(c)): ERR, OUT_LEN and the MEM ranges, which are
all a result is (R16); an earlier command's ERR and OUT_LEN are gone since the next was accepted (R46). -/
def spoilResult (s : State) : State :=
  { s with
    status := { s.status with err := spoiledErr s }
    outLen := spoiledLen s
    mem := (s.results.foldl scramble (s.mem, s.freePos + 1)).1
    freePos := (s.results.foldl scramble (s.mem, s.freePos + 1)).2 }

/-- Bytes put into MEM (R55, R138). -/
def storeBytes (s : State) (a : Word) (bs : List Byte) : State := { s with mem := memWrite s.mem a.toNat bs }

/-- A host write of MEM with BUSY = 0. Before the STATUS read that synchronises, a write of a byte or more makes the
results unspecified (R93(c), R310; log entry 20). -/
def hostStore (s : State) (a : Word) (bs : List Byte) : State :=
  if s.synced ∨ bs = [] then storeBytes s a bs else spoilResult (storeBytes s a bs)

/-- One host operation on the CORE (R138, R306). While BUSY = 1 the host has no MEM move (U3, H1); from the engine's step to
the STATUS read that returns BUSY = 0 it has one (R306), with unspecified values (R93(c)). -/
def hostTurn (op : HostOp) (s : State) : Host.Outcome State Fault Refusal :=
  match op with
  | .wr offset v =>
    match regAt offset with
    | some r => .next (writeReg s r v)
    | none => .refused .registerAccessShape
  | .rd offset =>
    match regAt offset with
    | some r => .next (hostRead s r)
    | none => .refused .registerAccessShape
  | .ldm a bs =>
    if s.status.busy then .refused .memWhileBusy
    else if windowOK s a bs.length then .next (hostStore s a bs)
    else .fault .outsideMem
  | .stm a n =>
    if s.status.busy then .refused .memWhileBusy
    else if windowOK s a n then .next (hostLoad s a n)
    else .fault .outsideMem
  | .sampleIrq => .next (answer s (.line (irq s)))
  | .rst => .next (resetCore s)

end Sys2Proof.Machine
end

