-- ==== Sys2Proof/Machine/Engine.lean ====
section
/-! DEFINITION. The engine's turn and the order of the agents (00_scope.md R14, 30 R121, 60 R270, 70 R318). -/

namespace Sys2Proof.Machine

/-- The engine's one step for the accepted word CUR_CMD: decode it and run the command, or report IllegalCommand (R121,
R266). With BUSY = 0 there is nothing to run and nothing changes (R302). -/
def engineTurn (s : State) : Host.Outcome State Fault Refusal :=
  if s.status.busy then
    match decode s.curCmd with
    | .ok i => exec i s
    | .error _ => .next (completeFail s .illegalCommand)
  else .next s

/-- The next turn in the schedule; when the host has nothing more to do the engine moves (R318: it is enabled whenever
BUSY = 1). Turns act whole and in order, so the engine's turn sees every host write before the accepted CMD write, and a
STATUS read of BUSY = 0 comes after every effect of the engine's turn (R93, R94); there is no fence, and `HostOp` has none. -/
def nextTurn (s : State) : Host.Outcome State Fault Refusal :=
  match s.turns with
  | [] => engineTurn s
  | .engine :: ts => engineTurn { s with turns := ts }
  | .host op :: ts => hostTurn op { s with turns := ts }

/-- What the host's accepted CMD write of `w` leaves (R46), with the engine to move next. -/
def issueWord (s : State) (w : Word) : State :=
  { acceptCommand s w with turns := .engine :: s.turns }

end Sys2Proof.Machine
end

