-- ==== Sys2Proof/Machine/Step.lean ====
section
/-! DEFINITION. One step of the machine, and placing a command where the engine takes its next one (log entry 11). -/

namespace Sys2Proof.Machine

/-- One step: the agent whose turn it is moves (R14). -/
def step (s : State) : Host.Outcome State Fault Refusal := nextTurn s

/-- `s` with the table word `w` issued as the host's CMD write would, so that the next step runs it. -/
def State.withFetchWord (s : State) (nbits w : Nat) : State := issueWord s (BitVec.ofNat 32 (w % 2 ^ nbits))

end Sys2Proof.Machine
end

