-- ==== Sys2Proof/Machine/HostNotation.lean ====
section
/-! DEFINITION. The host notation of 30_encoding.md: primitive statements (R138) and call forms (R139) as lists of turns. -/

namespace Sys2Proof.Machine

/-- The offset of an operand register: `0x20 + 4*i` (R30). -/
def regOffset (r : Reg) : Byte := BitVec.ofNat 8 (0x20 + 4 * r.index.val)

/-- `wr REG, v` on an operand register (R138). -/
def wrReg (r : Reg) (v : Word) : Turn := .host (.wr (regOffset r) v)

/-- A mnemonic: `wr CMD, OPC` (R138). -/
def issue (i : Instr) : Turn := .host (.wr 0x00 (encode i))

/-- `rd STATUS` and `rd OUT_LEN` (R138). -/
def rdStatus : Turn := .host (.rd 0x04)
def rdOutLen : Turn := .host (.rd 0x10)

/-- `wait`: `rd STATUS` until BUSY reads 0 (R138; log entry 18). The engine's step is taken first, so one read is enough; any number of
reads before it would only return BUSY = 1. -/
def waitDone : List Turn := [.engine, rdStatus]

/-- `ack`: `wr STATUS, 0x0000_0002` (R138). -/
def ack : Turn := .host (.wr 0x04 2)

/-- `gate v`: `wr GATE, 1 + 2*v` (R139). -/
def gateForm (v : Bool) : Turn := .host (.wr 0x0C (if v then 3 else 1))

/-- `encrypt dst, src, len, sec, seclen` (R139). -/
def encryptForm (dst src len sec seclen : Word) : List Turn :=
  [wrReg .dstAddr dst, wrReg .srcAddr src, wrReg .srcLen len, wrReg .secAddr sec, wrReg .secLen seclen, issue .encrypt]
    ++ waitDone

/-- `decrypt dst, src, len, sec, seclen` (R139). -/
def decryptForm (dst src len sec seclen : Word) : List Turn :=
  [wrReg .dstAddr dst, wrReg .srcAddr src, wrReg .srcLen len, wrReg .secAddr sec, wrReg .secLen seclen, issue .decrypt]
    ++ waitDone

/-- `genenc dst, keydst, src, len` (R139). -/
def genencForm (dst keydst src len : Word) : List Turn :=
  [wrReg .dstAddr dst, wrReg .secAddr keydst, wrReg .srcAddr src, wrReg .srcLen len, issue .genenc] ++ waitDone

/-- `decryptk dst, src, len, key` (R139). -/
def decryptkForm (dst src len key : Word) : List Turn :=
  [wrReg .dstAddr dst, wrReg .srcAddr src, wrReg .srcLen len, wrReg .secAddr key, wrReg .secLen 32, issue .decryptk]
    ++ waitDone

/-- `embed imgout, img, w, h, src, len` (R139). -/
def embedForm (imgout img w h src len : Word) : List Turn :=
  [wrReg .imgOutAddr imgout, wrReg .imgAddr img, wrReg .imgW w, wrReg .imgH h, wrReg .imgFmt 0, wrReg .srcAddr src,
    wrReg .srcLen len, issue .embed] ++ waitDone

/-- `extract dst, img, w, h` (R139). -/
def extractForm (dst img w h : Word) : List Turn :=
  [wrReg .dstAddr dst, wrReg .imgAddr img, wrReg .imgW w, wrReg .imgH h, wrReg .imgFmt 0, issue .extract] ++ waitDone

/-- The second part of `encode`, once the host has read STATUS after `encrypt tmp, ..`: it goes on only if
`$STATUS[15:8] = 0` (R139). -/
def encodeThen (status imgout img w h tmp len : Word) : List Turn :=
  if status.extractLsb' 8 8 = 0 then embedForm imgout img w h tmp (len + 28) else []

/-- The second part of `decode`, once the host has read STATUS after `extract tmp, ..`: `rd OUT_LEN` (R139). -/
def decodeThenRead (status : Word) : List Turn := if status.extractLsb' 8 8 = 0 then [rdOutLen] else []

/-- The third part of `decode`, with the value read from OUT_LEN (R139). -/
def decodeThen (status outLen dst tmp sec seclen : Word) : List Turn :=
  if status.extractLsb' 8 8 = 0 then decryptForm dst tmp outLen sec seclen else []

end Sys2Proof.Machine
end

