-- ==== Sys2Proof/WellFormed.lean ====
section
/-! DEFINITION. What makes a command, a command word and a set of parameters well-formed (R7, R120, R122, R124). -/

namespace Sys2Proof

/-- A command has no operand fields (R122), so there is nothing to check: every constructor is well-formed. -/
def Instr.wellFormed : Instr → Bool
  | .encrypt => true
  | .decrypt => true
  | .genenc => true
  | .decryptk => true
  | .embed => true
  | .extract => true

/-- A word of format C that names a command: bits 31:8 are 0 and OPC is 0x01..0x06 (R120, R124). -/
def commandWordWellFormed (w : Word) : Bool :=
  (w.extractLsb' 8 24 == 0) && (1 ≤ (w.extractLsb' 0 8).toNat) && ((w.extractLsb' 0 8).toNat ≤ 6)

/-- `1 ≤ MEM_BYTES < 2^32` (R7). -/
def Params.wellFormed (p : Params) : Bool :=
  (1 ≤ p.memBytes) && (p.memBytes < 2 ^ 32)

end Sys2Proof
end

