-- ==== Sys2Proof/Safety.lean ====
section
/-! DEFINITION. What a good state and a dutiful host are, in the terms the claims use. -/

namespace Sys2Proof.Machine

/-- The invariant of CORE. Each field names the rule it comes from. -/
structure Inv (s : State) : Prop where
  /-- `1 ≤ MEM_BYTES < 2^32` (R7). -/
  params : s.params.wellFormed = true
  /-- MEM is in its canonical form (a convention of the model). -/
  memCanonical : memWf s.mem = true
  /-- MEM has only the addresses `0 .. MEM_BYTES-1` (R55, R88). -/
  memInside : memBelow s.params.memBytes s.mem = true
  /-- `BUSY = 1` implies `DONE = 0` and `ERR = 0` (R47), and OUT_LEN was cleared at acceptance (R46, R50). -/
  busyClean : s.status.busy = true → s.status.done = false ∧ s.status.err = 0 ∧ s.outLen = 0
  /-- `ERR ≠ 0` implies `DONE = 1` (R47), and OUT_LEN stays 0 if the command failed (R50). -/
  errDone : s.status.err ≠ 0 → s.status.done = true ∧ s.outLen = 0
  /-- STATUS.ERR holds only the codes of the table (R260). -/
  errKnown : s.status.err ∈ errorCodes
  /-- "every output lies inside MEM" (R50). -/
  outInside : s.outLen.toNat ≤ s.params.memBytes
  /-- From the accepted CMD write until BUSY reads 0 the host has not synchronised (R93). -/
  busyUnsynced : s.status.busy = true → s.synced = false
  /-- The MEM part of the noted results lies in MEM (R90, R88). -/
  resultsInside : ∀ r ∈ s.results, r.len = 0 ∨ r.base + r.len ≤ s.params.memBytes

/-- The host's next operation keeps its duties H1 and H2 (R84, R93) and
stays inside MEM (R55); an engine turn asks nothing of the host. -/
def hostDuty (s : State) : Prop :=
  match s.turns with
  | .host (.wr offset _) :: _ => offset.toNat % 4 = 0
  | .host (.rd offset) :: _ => offset.toNat % 4 = 0
  | .host (.ldm a bs) :: _ => s.status.busy = false ∧ windowOK s a bs.length
  | .host (.stm a n) :: _ => s.status.busy = false ∧ windowOK s a n
  | .host .sampleIrq :: _ => True
  | .host .rst :: _ => True
  | .engine :: _ => True
  | [] => True

/-- It is the engine's turn: the schedule is empty or names the engine next. -/
def engineNext (s : State) : Prop :=
  match s.turns with
  | [] => True
  | .engine :: _ => True
  | .host _ :: _ => False

/-- The state with the turn that is about to be taken removed from the schedule. -/
def dropTurn (s : State) : State := { s with turns := s.turns.tail }

/-- A host operation waits at the head of the schedule. -/
def hostNext (s : State) (op : HostOp) : Prop := s.turns.head? = some (.host op)

/-- Everything but STATUS, OUT_LEN, MEM and the entropy port's position is unchanged: what no command may touch (R31,
R49, R270). -/
structure RestUnchanged (s t : State) : Prop where
  x : t.x = s.x
  ctrl : t.ctrl = s.ctrl
  gate : t.gate = s.gate
  curCmd : t.curCmd = s.curCmd
  params : t.params = s.params
  synced : t.synced = s.synced
  results : t.results = s.results
  freePos : t.freePos = s.freePos
  turns : t.turns = s.turns
  answers : t.answers = s.answers

/-- Every byte of MEM outside the ranges reads in `t` as it did in `s` (R91). -/
def memUnchangedOutside (rs : List Range) (s t : State) : Prop :=
  ∀ a, (∀ r ∈ rs, a < r.base ∨ r.base + r.len ≤ a) → readByte t.mem a = readByte s.mem a

/-- `t` is `s` after a command that failed with this code (R270, R271): no MEM byte written, no draw made. -/
structure FailedWith (code : Byte) (s t : State) : Prop where
  status : t.status = ⟨false, true, code⟩
  outLen : t.outLen = 0
  mem : t.mem = s.mem
  draws : t.entropyPos = s.entropyPos
  rest : RestUnchanged s t

/-- `t` is `s` after a command that succeeded with this OUT_LEN and this many drawn bytes, having written at most the
bytes of the ranges (R91, R270). -/
structure SucceededWith (len drawn : Nat) (rs : List Range) (s t : State) : Prop where
  status : t.status = ⟨false, true, 0⟩
  outLen : t.outLen.toNat = len
  draws : t.entropyPos = s.entropyPos + drawn
  frame : memUnchangedOutside rs s t
  rest : RestUnchanged s t

/-- Which command reads which operand register: the table of R31. -/
def readsOperand : Instr → Reg → Bool
  | .encrypt, .srcAddr => true
  | .encrypt, .srcLen => true
  | .encrypt, .dstAddr => true
  | .encrypt, .secAddr => true
  | .encrypt, .secLen => true
  | .encrypt, _ => false
  | .decrypt, .srcAddr => true
  | .decrypt, .srcLen => true
  | .decrypt, .dstAddr => true
  | .decrypt, .secAddr => true
  | .decrypt, .secLen => true
  | .decrypt, _ => false
  | .genenc, .srcAddr => true
  | .genenc, .srcLen => true
  | .genenc, .dstAddr => true
  | .genenc, .secAddr => true
  | .genenc, _ => false
  | .decryptk, .srcAddr => true
  | .decryptk, .srcLen => true
  | .decryptk, .dstAddr => true
  | .decryptk, .secAddr => true
  | .decryptk, .secLen => true
  | .decryptk, _ => false
  | .embed, .srcAddr => true
  | .embed, .srcLen => true
  | .embed, .imgAddr => true
  | .embed, .imgOutAddr => true
  | .embed, .imgW => true
  | .embed, .imgH => true
  | .embed, .imgFmt => true
  | .embed, _ => false
  | .extract, .dstAddr => true
  | .extract, .imgAddr => true
  | .extract, .imgW => true
  | .extract, .imgH => true
  | .extract, .imgFmt => true
  | .extract, _ => false

/-- The commands the gate applies to (R275). -/
def gated : Instr → Bool
  | .encrypt => false
  | .decrypt => true
  | .genenc => false
  | .decryptk => true
  | .embed => false
  | .extract => true

end Sys2Proof.Machine
end

