-- ==== Sys2Proof/Certificates/Slice0/Obligations.lean ====
section
/-! DEFINITION. Statements about CORE for the provers. Each docstring names the rule or the section it comes from. -/

open Sys2Proof Sys2Proof.Machine

/-! ### Encoding -/

/-- R124: the six command words, written out: a word selects a command exactly when all its 32 bits match. -/
def Obligations.OpcodeWordsDecode : Prop :=
  ∀ w : Word,
    (decode w = .ok .encrypt ↔ w = 0x00000001) ∧ (decode w = .ok .decrypt ↔ w = 0x00000002) ∧
    (decode w = .ok .genenc ↔ w = 0x00000003) ∧ (decode w = .ok .decryptk ↔ w = 0x00000004) ∧
    (decode w = .ok .embed ↔ w = 0x00000005) ∧ (decode w = .ok .extract ↔ w = 0x00000006)

/-- 30 sections 1 and 2, 20 section 1: every well-formed command decodes from its word, read as a word and as byte lanes,
and every word that decodes is that command's word and no other. That the decoder takes a word as its four byte lanes, lane
0 first, is the model's reading of R82 (log entry 17, DEDUCED). -/
def Obligations.DecodeAndEncodeAgree : Prop :=
  (∀ i : Instr, i.wellFormed = true → decode (encode i) = .ok i ∧ decodeBytes (wordLanes (encode i)) = .ok i) ∧
  (∀ (w : Word) (i : Instr), decode w = .ok i → w = encode i) ∧
  (∀ w : Word, commandWordWellFormed w = true ↔ ∃ i, decode w = .ok i)

/-- R121: on the engine's turn with BUSY = 1, a CUR_CMD with a bit of 31:8 set fails with IllegalCommand; with bits 31:8
zero the low byte 0x01..0x06 runs ENCRYPT, DECRYPT, GENENC, DECRYPTK, EMBED, EXTRACT, and any other fails with
IllegalCommand. The clauses cover all 2^32 words. -/
def Obligations.EngineDecodesTheWord : Prop :=
  ∀ (s : State) (w : Nat), s.status.busy = true → engineNext s → w = s.curCmd.toNat →
    (w / 256 ≠ 0 → ∃ t, step s = .next t ∧ FailedWith 0x11 (dropTurn s) t) ∧
    (w / 256 = 0 →
      (w % 256 = 1 → step s = exec .encrypt (dropTurn s)) ∧ (w % 256 = 2 → step s = exec .decrypt (dropTurn s)) ∧
      (w % 256 = 3 → step s = exec .genenc (dropTurn s)) ∧ (w % 256 = 4 → step s = exec .decryptk (dropTurn s)) ∧
      (w % 256 = 5 → step s = exec .embed (dropTurn s)) ∧ (w % 256 = 6 → step s = exec .extract (dropTurn s)) ∧
      (w % 256 = 0 ∨ 7 ≤ w % 256 → ∃ t, step s = .next t ∧ FailedWith 0x11 (dropTurn s) t))

/-! ### The step -/

/-- 30 R121, 60 R270: on the engine's turn with BUSY = 1 and CUR_CMD the word of a command, the step is that command's
`exec`, on the state less the turn taken from the model's schedule (log entry 6). -/
def Obligations.StepRunsTheDecodedCommand : Prop :=
  ∀ (s : State) (i : Instr), s.status.busy = true → decode s.curCmd = .ok i →
    (s.turns = [] → step s = exec i s) ∧
    (∀ ts, s.turns = .engine :: ts → step s = exec i { s with turns := ts })

/-- R125, R126: on the engine's turn with BUSY = 1 and CUR_CMD a word with a reserved bit set or with OPC 0x00 or
0x07..0xFF, the step completes with IllegalCommand and does nothing else; every other word is one of the six commands. -/
def Obligations.IllegalWordFails : Prop :=
  ∀ s : State, s.status.busy = true → engineNext s →
    (s.curCmd.toNat / 256 ≠ 0 → ∃ t, step s = .next t ∧ FailedWith 0x11 (dropTurn s) t) ∧
    (s.curCmd.toNat % 256 = 0 ∨ 7 ≤ s.curCmd.toNat % 256 → ∃ t, step s = .next t ∧ FailedWith 0x11 (dropTurn s) t) ∧
    (s.curCmd.toNat / 256 = 0 → 1 ≤ s.curCmd.toNat % 256 → s.curCmd.toNat % 256 ≤ 6 →
      ∃ i, decode s.curCmd = .ok i ∧ step s = exec i (dropTurn s))

/-- 60 R270, 70 R318: with BUSY = 1, for every accepted word and every operands, the engine's step is enabled and
completes: BUSY is cleared and DONE set. -/
def Obligations.EngineAlwaysCompletes : Prop :=
  ∀ s : State, s.status.busy = true → engineNext s →
    ∃ t, step s = .next t ∧ t.status.busy = false ∧ t.status.done = true

/-- 70 R302, log entry 6 (the model's choice): with nothing issued and no host turn waiting, a step changes nothing. -/
def Obligations.IdleMachineWaits : Prop :=
  ∀ s : State, s.status.busy = false → s.turns = [] → step s = .next s

/-- 20 R93, R84; the model's choices of log entries 6, 8, 9, 12 and 20: a step answers a next state exactly when the host's
next operation keeps its duties H1 and H2 and names addresses that exist; so no error and no command ever wedges the
machine. -/
def Obligations.StepStopsOnlyOnBrokenDuty : Prop :=
  ∀ s : State, (∃ t, step s = .next t) ↔ hostDuty s

/-- 00 R7, 10 R47, R50, 20 R88, R90, R93, 60 R260: the invariant is kept by every step of every agent, from any state that has
it. Its parts about the model's own fields are the model's choice: the parameters in State (log entry 1), the canonical form of
MEM (log entry 2), and that BUSY implies `synced` false and that `results` lies in MEM (log entry 20). So is one thing its
proof needs: a result that a host write has made unspecified keeps the limits of R47, R50 and R260 on ERR and OUT_LEN (log entry
20, there marked unsafe). -/
def Obligations.EveryStepKeepsInvariant : Prop :=
  ∀ s t : State, Inv s → step s = .next t → Inv t

/-- 10 R60, 00 R7: the invariant holds at reset, and at power-on with any MEM contents and parameters that are well-formed. The
parameters and MEM of State.reset, and `synced` and `results` at reset, are the model's choice (log entries 1, 2, 20). -/
def Obligations.InvariantAtReset : Prop :=
  Inv State.reset ∧
  ∀ (p : Params) (m : Memory), p.wellFormed = true → memWf m = true → memBelow p.memBytes m = true →
    Inv (State.powerOn p m)

/-- 10 R31, R49: on the engine's turn no operand register, CTRL, GATE or CUR_CMD changes. The rest is the model's choice:
that State carries the parameters of 00 R7 and no agent writes them (log entry 1), that the entropy port's position never
goes back (log entry 4), that the counter of free bytes stays on the engine's turn (log entry 5), that this turn leaves
`synced` and `results` (log entry 20), and that it tells the host nothing and takes one entry from the schedule (log entry
6). -/
def Obligations.EngineKeepsOperandsAndControl : Prop :=
  ∀ s t : State, step s = .next t →
    t.params = s.params ∧ s.entropyPos ≤ t.entropyPos ∧
    (engineNext s → t.x = s.x ∧ t.ctrl = s.ctrl ∧ t.gate = s.gate ∧ t.curCmd = s.curCmd ∧
      t.freePos = s.freePos ∧ t.synced = s.synced ∧ t.results = s.results ∧ t.answers = s.answers ∧ t.turns = s.turns.tail)

/-! ### All commands -/

/-- 60 R270, 10 R31, R49: every command answers a next state, in every state: BUSY cleared and DONE set; operand
registers, CTRL, GATE and CUR_CMD stay. The rest is the model's choice: `params` (log entry 1), `freePos` (log entry 5),
`turns` and `answers` (log entry 6), `synced` and `results` (log entry 20) stay. ERR, OUT_LEN, MEM and the
entropy port's position are not spoken of here. -/
def Obligations.CommandsKeepOperandsAndControl : Prop :=
  ∀ (i : Instr) (s : State), ∃ t, exec i s = .next t ∧ t.status.busy = false ∧ t.status.done = true ∧ RestUnchanged s t

/-- 20 R90, R91: a command that completes without error changes, in MEM, no byte outside its output ranges (R90); a command that
fails changes no MEM byte. -/
def Obligations.CommandsWriteOnlyOutputRanges : Prop :=
  ∀ (i : Instr) (s t : State), memWf s.mem = true → exec i s = .next t →
    (t.status.err = 0 → memUnchangedOutside (outputRanges i s) s t) ∧ (t.status.err ≠ 0 → t.mem = s.mem)

/-- R271: a command that fails has written no MEM byte and has made no draw (OUT_LEN is 0, R270); the commands other than
ENCRYPT and GENENC make no draw at all. -/
def Obligations.FailuresAreClean : Prop :=
  ∀ (i : Instr) (s t : State), exec i s = .next t →
    (t.status.err ≠ 0 → t.mem = s.mem ∧ t.entropyPos = s.entropyPos ∧ t.outLen = 0) ∧
    (i ≠ .encrypt → i ≠ .genenc → t.entropyPos = s.entropyPos)

/-- R31: an operand register that the table marks `-` for a command cannot affect it: two states that agree on the marked
registers, on MEM, the parameters, the entropy port and, for a gated command, the gate, give the same STATUS, OUT_LEN, MEM
and draws, whatever else differs; and no command writes an operand register. -/
def Obligations.CommandsDependOnlyOnTheirInputs : Prop :=
  ∀ (i : Instr) (s s' t t' : State),
    (∀ r, readsOperand i r = true → s.reg r = s'.reg r) → (gated i = true → gateShut s = gateShut s') →
    s.mem = s'.mem → s.params = s'.params → s.entropyPos = s'.entropyPos →
    exec i s = .next t → exec i s' = .next t' →
    t.status = t'.status ∧ t.outLen = t'.outLen ∧ t.mem = t'.mem ∧ t.entropyPos = t'.entropyPos ∧
    t.x = s.x ∧ t'.x = s'.x

/-- R275: with GATE.EN = 1 and GATE.VERIFIED = 0 DECRYPT, DECRYPTK and EXTRACT fail with AccessDenied, whatever the rest of
the state; ENCRYPT, GENENC and EMBED run the same whatever GATE holds, and so do the three while the gate is not shut; no
command changes GATE. -/
def Obligations.GateGuardsDecoding : Prop :=
  (∀ s : State, s.gate.en = true → s.gate.verified = false →
    (∃ t, exec .decrypt s = .next t ∧ FailedWith 0x13 s t) ∧
    (∃ t, exec .decryptk s = .next t ∧ FailedWith 0x13 s t) ∧
    (∃ t, exec .extract s = .next t ∧ FailedWith 0x13 s t)) ∧
  (∀ (i : Instr) (s : State) (g : Gate),
    i = .encrypt ∨ i = .genenc ∨ i = .embed ∨
      ((s.gate.en = false ∨ s.gate.verified = true) ∧ (g.en = false ∨ g.verified = true)) →
    ∃ t, exec i s = .next t ∧ exec i { s with gate := g } = .next { t with gate := g }) ∧
  (∀ (i : Instr) (s t : State), exec i s = .next t → t.gate = s.gate)

/-! ### Cipher commands -/

/-- R200: ENCRYPT step by step. Ranges not in order: BadOperand. Else a short secret: InvalidSecret. Else it writes
`IV || T || C` at DST_ADDR, with the IV drawn and `(C, T) = GCM_AE(KDF_FN(secret), IV, P)`, and nothing else in MEM. The gate
does not apply. -/
def Obligations.EncryptFollowsItsRule : Prop :=
  ∀ s : State,
    (¬ encryptRangeOK s → ∃ t, exec .encrypt s = .next t ∧ FailedWith 0x12 s t) ∧
    (encryptRangeOK s → secretOK s.params.secretLenUnit (memRead s.mem (opNat s .secAddr) (opNat s .secLen)) = false →
      ∃ t, exec .encrypt s = .next t ∧ FailedWith 0x01 s t) ∧
    (memWf s.mem = true →
      rangeValid s ⟨opNat s .srcAddr, opNat s .srcLen⟩ → rangeValid s ⟨opNat s .secAddr, opNat s .secLen⟩ →
      rangeValid s ⟨opNat s .dstAddr, 28 + opNat s .srcLen⟩ → 28 + opNat s .srcLen < 2 ^ 32 →
      rangesDisjoint ⟨opNat s .dstAddr, 28 + opNat s .srcLen⟩ ⟨opNat s .srcAddr, opNat s .srcLen⟩ →
      rangesDisjoint ⟨opNat s .dstAddr, 28 + opNat s .srcLen⟩ ⟨opNat s .secAddr, opNat s .secLen⟩ →
      secretOK s.params.secretLenUnit (memRead s.mem (opNat s .secAddr) (opNat s .secLen)) = true →
      ∃ t, exec .encrypt s = .next t ∧
        SucceededWith (28 + opNat s .srcLen) 12 [⟨opNat s .dstAddr, 28 + opNat s .srcLen⟩] s t ∧
        memRead t.mem (opNat s .dstAddr) (28 + opNat s .srcLen) =
          drawBytes s 0 12 ++
          (gcmAE (deriveKey (memRead s.mem (opNat s .secAddr) (opNat s .secLen))) (drawBytes s 0 12)
            (memRead s.mem (opNat s .srcAddr) (opNat s .srcLen))).2 ++
          (gcmAE (deriveKey (memRead s.mem (opNat s .secAddr) (opNat s .secLen))) (drawBytes s 0 12)
            (memRead s.mem (opNat s .srcAddr) (opNat s .srcLen))).1)

/-- R201: DECRYPT step by step. Gate shut: AccessDenied. Else ranges not in order: BadOperand. Else a short secret:
InvalidSecret. Else an envelope under 28 bytes: MalformedEnvelope. Else a tag that does not verify under KDF_FN(secret):
AuthenticationFailed. Else it writes the plaintext at DST_ADDR, and nothing else in MEM, and makes no draw. -/
def Obligations.DecryptFollowsItsRule : Prop :=
  ∀ s : State,
    (s.gate.en = true → s.gate.verified = false → ∃ t, exec .decrypt s = .next t ∧ FailedWith 0x13 s t) ∧
    ((s.gate.en = false ∨ s.gate.verified = true) →
      (¬ decryptRangeOK s → ∃ t, exec .decrypt s = .next t ∧ FailedWith 0x12 s t) ∧
      (decryptRangeOK s → secretOK s.params.secretLenUnit (memRead s.mem (opNat s .secAddr) (opNat s .secLen)) = false →
        ∃ t, exec .decrypt s = .next t ∧ FailedWith 0x01 s t) ∧
      (decryptRangeOK s → secretOK s.params.secretLenUnit (memRead s.mem (opNat s .secAddr) (opNat s .secLen)) = true →
        opNat s .srcLen < 28 → ∃ t, exec .decrypt s = .next t ∧ FailedWith 0x10 s t) ∧
      (decryptRangeOK s → secretOK s.params.secretLenUnit (memRead s.mem (opNat s .secAddr) (opNat s .secLen)) = true →
        28 ≤ opNat s .srcLen →
        gcmAD (deriveKey (memRead s.mem (opNat s .secAddr) (opNat s .secLen))) (memRead s.mem (opNat s .srcAddr) 12)
          (memRead s.mem (opNat s .srcAddr + 28) (opNat s .srcLen - 28)) (memRead s.mem (opNat s .srcAddr + 12) 16) = none →
        ∃ t, exec .decrypt s = .next t ∧ FailedWith 0x02 s t) ∧
      (∀ p : List Byte, memWf s.mem = true →
        rangeValid s ⟨opNat s .srcAddr, opNat s .srcLen⟩ → rangeValid s ⟨opNat s .secAddr, opNat s .secLen⟩ →
        rangeValid s ⟨opNat s .dstAddr, opNat s .srcLen - 28⟩ →
        rangesDisjoint ⟨opNat s .dstAddr, opNat s .srcLen - 28⟩ ⟨opNat s .srcAddr, opNat s .srcLen⟩ →
        rangesDisjoint ⟨opNat s .dstAddr, opNat s .srcLen - 28⟩ ⟨opNat s .secAddr, opNat s .secLen⟩ →
        secretOK s.params.secretLenUnit (memRead s.mem (opNat s .secAddr) (opNat s .secLen)) = true →
        28 ≤ opNat s .srcLen →
        gcmAD (deriveKey (memRead s.mem (opNat s .secAddr) (opNat s .secLen))) (memRead s.mem (opNat s .srcAddr) 12)
          (memRead s.mem (opNat s .srcAddr + 28) (opNat s .srcLen - 28)) (memRead s.mem (opNat s .srcAddr + 12) 16) = some p →
        ∃ t, exec .decrypt s = .next t ∧
          SucceededWith (opNat s .srcLen - 28) 0 [⟨opNat s .dstAddr, opNat s .srcLen - 28⟩] s t ∧
          memRead t.mem (opNat s .dstAddr) (opNat s .srcLen - 28) = p))

/-- R202: GENENC step by step. Ranges not in order: BadOperand. Else it draws 32 key bytes, then 12 IV bytes, writes the
envelope at DST_ADDR and the key at SEC_ADDR, and nothing else in MEM. There is no other error and the gate does not
apply. -/
def Obligations.GenencFollowsItsRule : Prop :=
  ∀ s : State,
    (¬ genencRangeOK s → ∃ t, exec .genenc s = .next t ∧ FailedWith 0x12 s t) ∧
    (memWf s.mem = true →
      rangeValid s ⟨opNat s .srcAddr, opNat s .srcLen⟩ → rangeValid s ⟨opNat s .dstAddr, 28 + opNat s .srcLen⟩ →
      rangeValid s ⟨opNat s .secAddr, 32⟩ → 28 + opNat s .srcLen < 2 ^ 32 →
      rangesDisjoint ⟨opNat s .dstAddr, 28 + opNat s .srcLen⟩ ⟨opNat s .srcAddr, opNat s .srcLen⟩ →
      rangesDisjoint ⟨opNat s .secAddr, 32⟩ ⟨opNat s .srcAddr, opNat s .srcLen⟩ →
      rangesDisjoint ⟨opNat s .dstAddr, 28 + opNat s .srcLen⟩ ⟨opNat s .secAddr, 32⟩ →
      ∃ t, exec .genenc s = .next t ∧
        SucceededWith (28 + opNat s .srcLen) 44 [⟨opNat s .dstAddr, 28 + opNat s .srcLen⟩, ⟨opNat s .secAddr, 32⟩] s t ∧
        memRead t.mem (opNat s .secAddr) 32 = drawBytes s 0 32 ∧
        memRead t.mem (opNat s .dstAddr) (28 + opNat s .srcLen) =
          drawBytes s 32 12 ++
          (gcmAE (drawBytes s 0 32) (drawBytes s 32 12) (memRead s.mem (opNat s .srcAddr) (opNat s .srcLen))).2 ++
          (gcmAE (drawBytes s 0 32) (drawBytes s 32 12) (memRead s.mem (opNat s .srcAddr) (opNat s .srcLen))).1)

/-- R203: DECRYPTK step by step. Gate shut: AccessDenied. Else SEC_LEN not 32 or ranges not in order: BadOperand. Else an
envelope under 28 bytes: MalformedEnvelope. Else a tag that does not verify under the 32 bytes at SEC_ADDR:
AuthenticationFailed. Else it writes the plaintext at DST_ADDR, and nothing else in MEM, and makes no draw. -/
def Obligations.DecryptkFollowsItsRule : Prop :=
  ∀ s : State,
    (s.gate.en = true → s.gate.verified = false → ∃ t, exec .decryptk s = .next t ∧ FailedWith 0x13 s t) ∧
    ((s.gate.en = false ∨ s.gate.verified = true) →
      (opNat s .secLen ≠ 32 ∨ ¬ decryptRangeOK s → ∃ t, exec .decryptk s = .next t ∧ FailedWith 0x12 s t) ∧
      (opNat s .secLen = 32 → decryptRangeOK s → opNat s .srcLen < 28 →
        ∃ t, exec .decryptk s = .next t ∧ FailedWith 0x10 s t) ∧
      (opNat s .secLen = 32 → decryptRangeOK s → 28 ≤ opNat s .srcLen →
        gcmAD (memRead s.mem (opNat s .secAddr) 32) (memRead s.mem (opNat s .srcAddr) 12)
          (memRead s.mem (opNat s .srcAddr + 28) (opNat s .srcLen - 28)) (memRead s.mem (opNat s .srcAddr + 12) 16) = none →
        ∃ t, exec .decryptk s = .next t ∧ FailedWith 0x02 s t) ∧
      (∀ p : List Byte, memWf s.mem = true →
        opNat s .secLen = 32 →
        rangeValid s ⟨opNat s .srcAddr, opNat s .srcLen⟩ → rangeValid s ⟨opNat s .secAddr, 32⟩ →
        rangeValid s ⟨opNat s .dstAddr, opNat s .srcLen - 28⟩ →
        rangesDisjoint ⟨opNat s .dstAddr, opNat s .srcLen - 28⟩ ⟨opNat s .srcAddr, opNat s .srcLen⟩ →
        rangesDisjoint ⟨opNat s .dstAddr, opNat s .srcLen - 28⟩ ⟨opNat s .secAddr, 32⟩ →
        28 ≤ opNat s .srcLen →
        gcmAD (memRead s.mem (opNat s .secAddr) 32) (memRead s.mem (opNat s .srcAddr) 12)
          (memRead s.mem (opNat s .srcAddr + 28) (opNat s .srcLen - 28)) (memRead s.mem (opNat s .srcAddr + 12) 16) = some p →
        ∃ t, exec .decryptk s = .next t ∧
          SucceededWith (opNat s .srcLen - 28) 0 [⟨opNat s .dstAddr, opNat s .srcLen - 28⟩] s t ∧
          memRead t.mem (opNat s .dstAddr) (opNat s .srcLen - 28) = p))

/-- 41 R204(a): if ENCRYPT succeeds, DECRYPT of its output with the same secret, from the state it left with only operand
registers rewritten, succeeds and writes the plaintext. -/
def Obligations.EncryptThenDecryptRoundTrip : Prop :=
  ∀ (s t u : State), memWf s.mem = true → exec .encrypt s = .next t → t.status.err = 0 →
    u.mem = t.mem → u.params = t.params → (u.gate.en = false ∨ u.gate.verified = true) →
    opNat u .srcAddr = opNat s .dstAddr → opNat u .srcLen = 28 + opNat s .srcLen →
    opNat u .secAddr = opNat s .secAddr → opNat u .secLen = opNat s .secLen → decryptRangeOK u →
    ∃ v, exec .decrypt u = .next v ∧ v.status.err = 0 ∧ v.outLen.toNat = opNat s .srcLen ∧
      memRead v.mem (opNat u .dstAddr) (opNat s .srcLen) = memRead s.mem (opNat s .srcAddr) (opNat s .srcLen)

/-- 41 R204(b): if GENENC succeeds, DECRYPTK of its envelope with the exported key succeeds and writes the plaintext. -/
def Obligations.GenencThenDecryptkRoundTrip : Prop :=
  ∀ (s t u : State), memWf s.mem = true → exec .genenc s = .next t → t.status.err = 0 →
    u.mem = t.mem → u.params = t.params → (u.gate.en = false ∨ u.gate.verified = true) →
    opNat u .srcAddr = opNat s .dstAddr → opNat u .srcLen = 28 + opNat s .srcLen →
    opNat u .secAddr = opNat s .secAddr → opNat u .secLen = 32 → decryptRangeOK u →
    ∃ v, exec .decryptk u = .next v ∧ v.status.err = 0 ∧ v.outLen.toNat = opNat s .srcLen ∧
      memRead v.mem (opNat u .dstAddr) (opNat s .srcLen) = memRead s.mem (opNat s .srcAddr) (opNat s .srcLen)

/-- 41 R204(d): what ENCRYPT sealed under a secret, DECRYPTK opens with the 32 bytes `KDF_FN(secret)` as its key, wherever
envelope and key have been put. -/
def Obligations.EncryptThenDecryptkRoundTrip : Prop :=
  ∀ (s t u : State), memWf s.mem = true → memWf u.mem = true → exec .encrypt s = .next t → t.status.err = 0 →
    (u.gate.en = false ∨ u.gate.verified = true) → opNat u .srcLen = 28 + opNat s .srcLen → opNat u .secLen = 32 →
    memRead u.mem (opNat u .srcAddr) (28 + opNat s .srcLen) = memRead t.mem (opNat s .dstAddr) (28 + opNat s .srcLen) →
    memRead u.mem (opNat u .secAddr) 32 = deriveKey (memRead s.mem (opNat s .secAddr) (opNat s .secLen)) →
    decryptRangeOK u →
    ∃ v, exec .decryptk u = .next v ∧ v.status.err = 0 ∧ v.outLen.toNat = opNat s .srcLen ∧
      memRead v.mem (opNat u .dstAddr) (opNat s .srcLen) = memRead s.mem (opNat s .srcAddr) (opNat s .srcLen)

/-! ### Stego commands -/

/-- 43 R240, 20 R90: EMBED step by step. Format not 0: UnsupportedImageFormat. Else ranges not in order: BadOperand. Else a payload
that does not fit: PayloadTooLarge. Else it writes the whole output image `EmbedBits(px, Bits(Frame(p)))` at IMG_OUT_ADDR, in
place or elsewhere, and nothing else in MEM, and makes no draw. The gate does not apply. The condition `4*W*H < 2^32` among
the ranges is R90's, which R240 does not list; that it belongs here is the model's reading (log entry 13, DEDUCED). -/
def Obligations.EmbedFollowsItsRule : Prop :=
  ∀ s : State,
    (opNat s .imgFmt ≠ 0 → ∃ t, exec .embed s = .next t ∧ FailedWith 0x05 s t) ∧
    (opNat s .imgFmt = 0 → ¬ embedRangeOK s → ∃ t, exec .embed s = .next t ∧ FailedWith 0x12 s t) ∧
    (opNat s .imgFmt = 0 → embedRangeOK s → 3 * opNat s .imgW * opNat s .imgH < 32 + 8 * opNat s .srcLen →
      ∃ t, exec .embed s = .next t ∧ FailedWith 0x03 s t) ∧
    (memWf s.mem = true → opNat s .imgFmt = 0 →
      rangeValid s ⟨opNat s .srcAddr, opNat s .srcLen⟩ →
      rangeValid s ⟨opNat s .imgAddr, 4 * opNat s .imgW * opNat s .imgH⟩ →
      rangeValid s ⟨opNat s .imgOutAddr, 4 * opNat s .imgW * opNat s .imgH⟩ →
      4 * opNat s .imgW * opNat s .imgH < 2 ^ 32 →
      rangesDisjoint ⟨opNat s .imgOutAddr, 4 * opNat s .imgW * opNat s .imgH⟩ ⟨opNat s .srcAddr, opNat s .srcLen⟩ →
      (opNat s .imgOutAddr = opNat s .imgAddr ∨
        rangesDisjoint ⟨opNat s .imgOutAddr, 4 * opNat s .imgW * opNat s .imgH⟩
          ⟨opNat s .imgAddr, 4 * opNat s .imgW * opNat s .imgH⟩) →
      32 + 8 * opNat s .srcLen ≤ 3 * opNat s .imgW * opNat s .imgH →
      ∃ t, exec .embed s = .next t ∧
        SucceededWith (4 * opNat s .imgW * opNat s .imgH) 0
          [⟨opNat s .imgOutAddr, 4 * opNat s .imgW * opNat s .imgH⟩] s t ∧
        memRead t.mem (opNat s .imgOutAddr) (4 * opNat s .imgW * opNat s .imgH) =
          embedBits (memRead s.mem (opNat s .imgAddr) (4 * opNat s .imgW * opNat s .imgH))
            (bits (frame (memRead s.mem (opNat s .srcAddr) (opNat s .srcLen)))))

/-- R241: EXTRACT step by step, with `N` the big-endian number in the first 32 low bits. Gate shut: AccessDenied. Else format
not 0: UnsupportedImageFormat. Else the image not in MEM: BadOperand. Else a capacity below 32 bits, or a prefix beyond
capacity: InvalidStegoPayload. Else a destination not in order: BadOperand. Else it writes the `N` payload bytes at DST_ADDR,
and nothing else in MEM, and makes no draw. -/
def Obligations.ExtractFollowsItsRule : Prop :=
  ∀ (s : State) (px : List Byte) (n : Nat),
    px = memRead s.mem (opNat s .imgAddr) (4 * opNat s .imgW * opNat s .imgH) →
    n = unbe32 (bytes (readBits px 0 32)) →
    (s.gate.en = true → s.gate.verified = false → ∃ t, exec .extract s = .next t ∧ FailedWith 0x13 s t) ∧
    ((s.gate.en = false ∨ s.gate.verified = true) →
      (opNat s .imgFmt ≠ 0 → ∃ t, exec .extract s = .next t ∧ FailedWith 0x05 s t) ∧
      (opNat s .imgFmt = 0 → ¬ rangeValid s (imgRange s) → ∃ t, exec .extract s = .next t ∧ FailedWith 0x12 s t) ∧
      (opNat s .imgFmt = 0 → rangeValid s (imgRange s) → 3 * opNat s .imgW * opNat s .imgH < 32 →
        ∃ t, exec .extract s = .next t ∧ FailedWith 0x04 s t) ∧
      (opNat s .imgFmt = 0 → rangeValid s (imgRange s) → 32 ≤ 3 * opNat s .imgW * opNat s .imgH →
        3 * opNat s .imgW * opNat s .imgH < 32 + 8 * n → ∃ t, exec .extract s = .next t ∧ FailedWith 0x04 s t) ∧
      (opNat s .imgFmt = 0 → rangeValid s (imgRange s) → 32 + 8 * n ≤ 3 * opNat s .imgW * opNat s .imgH →
        ¬ extractDstOK s n → ∃ t, exec .extract s = .next t ∧ FailedWith 0x12 s t) ∧
      (memWf s.mem = true →
        opNat s .imgFmt = 0 → rangeValid s ⟨opNat s .imgAddr, 4 * opNat s .imgW * opNat s .imgH⟩ →
        32 + 8 * n ≤ 3 * opNat s .imgW * opNat s .imgH →
        rangeValid s ⟨opNat s .dstAddr, n⟩ →
        rangesDisjoint ⟨opNat s .dstAddr, n⟩ ⟨opNat s .imgAddr, 4 * opNat s .imgW * opNat s .imgH⟩ →
        ∃ t, exec .extract s = .next t ∧ SucceededWith n 0 [⟨opNat s .dstAddr, n⟩] s t ∧
          memRead t.mem (opNat s .dstAddr) n = bytes (readBits px 32 (8 * n))))

/-- 43 R242(a): if EMBED succeeds, EXTRACT from its output buffer with the same dimensions, gate open and destination in
order, succeeds and writes the payload. -/
def Obligations.EmbedThenExtractRoundTrip : Prop :=
  ∀ (s t u : State), memWf s.mem = true → exec .embed s = .next t → t.status.err = 0 →
    u.mem = t.mem → u.params = t.params → (u.gate.en = false ∨ u.gate.verified = true) →
    opNat u .imgAddr = opNat s .imgOutAddr → opNat u .imgW = opNat s .imgW → opNat u .imgH = opNat s .imgH →
    opNat u .imgFmt = 0 → extractDstOK u (opNat s .srcLen) →
    ∃ v, exec .extract u = .next v ∧ v.status.err = 0 ∧ v.outLen.toNat = opNat s .srcLen ∧
      memRead v.mem (opNat u .dstAddr) (opNat s .srcLen) = memRead s.mem (opNat s .srcAddr) (opNat s .srcLen)

/-- 43 R242(b): once EXTRACT has succeeded, EXTRACT of the same image with another width or height gives the same result if
the pixels still cover the payload, and fails with InvalidStegoPayload if they do not. -/
def Obligations.ExtractSeesThePixelCountOnly : Prop :=
  ∀ (s t u : State), exec .extract s = .next t → t.status.err = 0 → u.mem = s.mem → u.params = s.params →
    (u.gate.en = false ∨ u.gate.verified = true) → opNat u .imgAddr = opNat s .imgAddr → opNat u .dstAddr = opNat s .dstAddr →
    opNat u .imgFmt = 0 → rangeValid u (imgRange u) →
    (32 + 8 * t.outLen.toNat ≤ 3 * opNat u .imgW * opNat u .imgH → extractDstOK u t.outLen.toNat →
      ∃ v, exec .extract u = .next v ∧ v.status = t.status ∧ v.outLen = t.outLen ∧ v.mem = t.mem) ∧
    (3 * opNat u .imgW * opNat u .imgH < 32 + 8 * t.outLen.toNat → ∃ v, exec .extract u = .next v ∧ FailedWith 0x04 u v)

/-! ### Bit packing and framing -/

/-- R220, R221: bit `8k+j` of `Bits(s)` is bit `7-j` of byte `k`; byte `k` of `Bytes(b)` is the sum of its eight bits, the
first the heaviest; and on whole bytes each undoes the other. -/
def Obligations.BitsAndBytesAreInverse : Prop :=
  (∀ s : List Byte, (bits s).length = 8 * s.length) ∧
  (∀ (s : List Byte) (k j : Nat) (b : Byte), s[k]? = some b → j ≤ 7 → (bits s)[8 * k + j]? = some (b.getLsbD (7 - j))) ∧
  (∀ (b : List Bool) (n : Nat), b.length = 8 * n → (bytes b).length = n ∧
    ∀ k, k < n → ((bytes b).getD k 0).toNat =
      ((List.range 8).map fun j => (b.getD (8 * k + j) false).toNat * 2 ^ (7 - j)).sum) ∧
  (∀ s : List Byte, bytes (bits s) = s) ∧
  (∀ (b : List Bool) (n : Nat), b.length = 8 * n → bits (bytes b) = b)

/-- R224: the index pair is inverse; `Off` is strictly increasing and never 3 modulo 4; alpha has no bit index. -/
def Obligations.SubchannelIndexIsABijection : Prop :=
  (∀ i, bitIndexToSubchannel i = (i / 3, i % 3)) ∧
  (∀ i, subchannelToBitIndex (bitIndexToSubchannel i).1 (bitIndexToSubchannel i).2 = some i) ∧
  (∀ p c, c < 3 → ∃ i, subchannelToBitIndex p c = some i ∧ bitIndexToSubchannel i = (p, c)) ∧
  (∀ p, subchannelToBitIndex p 3 = none) ∧
  (∀ i j, i < j → off i < off j) ∧ (∀ i, off i = 4 * (i / 3) + i % 3 ∧ off i % 4 ≠ 3)

/-- R225: `EmbedBits(px, b)` as its two cases, byte by byte. -/
def Obligations.EmbedBitsByteByByte : Prop :=
  ∀ (px : List Byte) (b : List Bool),
    (embedBits px b).length = px.length ∧
    (∀ (i : Nat) (v : Bool) (old : Byte), b[i]? = some v → px[off i]? = some old →
      (embedBits px b)[off i]? = some ((old &&& 0xFE#8) ||| (if v then 1#8 else 0#8))) ∧
    (∀ o, (∀ i, i < b.length → o ≠ off i) → (embedBits px b)[o]? = px[o]?)

/-- 42 R229(a) and (b): what was embedded is read back: the bits, the length prefix and the payload. -/
def Obligations.StegoRoundTripOnBuffers : Prop :=
  ∀ (px p : List Byte) (W H : Nat), px.length = 4 * W * H → 32 + 8 * p.length ≤ 3 * W * H → p.length < 2 ^ 32 →
    readBits (embedBits px (bits (frame p))) 0 (32 + 8 * p.length) = bits (frame p) ∧
    prefixOf (embedBits px (bits (frame p))) = p.length ∧ unframe (embedBits px (bits (frame p))) = p

/-- 42 R229(c), (d) and (e): embedding changes only bit 0 of used subchannels, is idempotent, and overwrites an earlier
embedding: the result depends on `px` only through bits 7:1 of used subchannels and through unused bytes. -/
def Obligations.EmbeddingTouchesOnlyLowBits : Prop :=
  ∀ (px : List Byte) (b : List Bool),
    (∀ (o : Nat) (x y : Byte), px[o]? = some x → (embedBits px b)[o]? = some y →
      (y ^^^ x = 0#8 ∨ y ^^^ x = 1#8) ∧ ((∀ i, i < b.length → o ≠ off i) → y ^^^ x = 0#8)) ∧
    embedBits (embedBits px b) b = embedBits px b ∧
    (∀ qx : List Byte, qx.length = px.length →
      (∀ (o : Nat) (x y : Byte), px[o]? = some x → qx[o]? = some y →
        x >>> 1 = y >>> 1 ∧ ((∀ i, i < b.length → o ≠ off i) → x = y)) →
      embedBits qx b = embedBits px b)

/-- R222: `Frame(p)` is the four bytes of `len(p)`, most significant first, then `p`; its length; and `TotalBits`. -/
def Obligations.FrameIsPrefixAndPayload : Prop :=
  ∀ p : List Byte, p.length < 2 ^ 32 →
    frame p = [BitVec.ofNat 8 (p.length / 2 ^ 24), BitVec.ofNat 8 (p.length / 2 ^ 16), BitVec.ofNat 8 (p.length / 2 ^ 8),
      BitVec.ofNat 8 p.length] ++ p ∧
    unbe32 ((frame p).take 4) = p.length ∧ (frame p).length = 4 + p.length ∧
    totalBits p.length = 8 * (frame p).length ∧ totalBits p.length = 32 + 8 * p.length

/-! ### AEAD primitives -/

/-- 40 R166: the known answer of AES-256. -/
def Obligations.AesKnownAnswer : Prop :=
  aes256 ((List.range 32).map (BitVec.ofNat 8)) 0x00112233445566778899aabbccddeeff = 0x8ea2b7ca516745bfeafc49904b496089

/-- 40 R166: for every 32-byte key AES-256 is injective on blocks, hence a permutation of the 2^128 blocks. -/
def Obligations.AesIsAPermutation : Prop :=
  ∀ (K : List Byte), K.length = 32 → ∀ X Y : Block, aes256 K X = aes256 K Y → X = Y

/-- 40 R160, R178(a) and (b): what GCM_AE seals GCM_AD opens, for every key, IV and plaintext; the ciphertext is as long as
the plaintext and the tag has 16 bytes. -/
def Obligations.GcmOpensWhatItSeals : Prop :=
  ∀ K iv P : List Byte,
    gcmAD K iv (gcmAE K iv P).1 (gcmAE K iv P).2 = some P ∧
    (gcmAE K iv P).1.length = P.length ∧ (gcmAE K iv P).2.length = 16

/-- 40 R178(c) and (d): on a sealed plaintext, any other tag of any length is rejected whatever the key, and so is any other
12-byte IV under a 32-byte key. -/
def Obligations.ChangedTagOrIvIsRejected : Prop :=
  (∀ K iv P T : List Byte, T ≠ (gcmAE K iv P).2 → gcmAD K iv (gcmAE K iv P).1 T = none) ∧
  (∀ K iv iv' P : List Byte, K.length = 32 → iv.length = 12 → iv'.length = 12 → iv' ≠ iv →
    gcmAD K iv' (gcmAE K iv P).1 (gcmAE K iv P).2 = none)

/-- 40 R178(e): if the product by `H` sends only 0 to 0 (93 G4 lets a model take this of the field as a hypothesis where
`H ≠ 0`), GHASH under `H` tells apart two inputs that differ in exactly one 16-byte block. -/
def Obligations.GhashSeesOneChangedBlock : Prop :=
  ∀ (H : Block) (front b b' back : List Byte), (∀ X : Block, gf128Mul X H = 0 → X = 0) →
    front.length % 16 = 0 → b.length = 16 → b'.length = 16 → back.length % 16 = 0 → b ≠ b' →
    ghash H (front ++ b ++ back) ≠ ghash H (front ++ b' ++ back)

/-- 40 R171: the product distributes over XOR on both sides and the block `80 00 .. 00` is its left identity. -/
def Obligations.GhashProductIsBilinear : Prop :=
  ∀ X Y Z : Block,
    gf128Mul (X ^^^ Y) Z = gf128Mul X Z ^^^ gf128Mul Y Z ∧ gf128Mul Z (X ^^^ Y) = gf128Mul Z X ^^^ gf128Mul Z Y ∧
    gf128Mul (1#128 <<< 127) X = X

/-- R172: `inc32` leaves bytes 0..11 and counts bytes 12..15 up modulo 2^32. -/
def Obligations.IncrementTouchesTheCounterOnly : Prop :=
  ∀ B : Block, (inc32 B).toNat / 2 ^ 32 = B.toNat / 2 ^ 32 ∧
    (inc32 B).toNat % 2 ^ 32 = (B.toNat % 2 ^ 32 + 1) % 2 ^ 32

/-! ### Registers and the host's side -/

/-- 00 R14; log entry 6: when a host operation is next, the step is that operation on the state less the turn taken. -/
def Obligations.StepRunsTheHostOperation : Prop :=
  ∀ (s : State) (op : HostOp) (ts : List Turn), s.turns = .host op :: ts → step s = hostTurn op { s with turns := ts }

/-- R46: a CMD write of any word while BUSY = 0 is accepted in one step, a word that names no command too, which then ends
with IllegalCommand on the engine's turn; a write while BUSY = 1 is ignored; a read returns 0. The
model's own fields `synced` and `results` (log entry 20) are not spoken of here. -/
def Obligations.CmdWriteIsAccepted : Prop :=
  ∀ (s : State) (w : Word),
    (s.status.busy = false →
      ∃ t, hostTurn (.wr 0x00 w) s = .next t ∧
        t = { s with curCmd := w, status := { busy := true, done := false, err := 0 }, outLen := 0, synced := t.synced,
                      results := t.results } ∧
        ((∀ i, decode w ≠ .ok i) → ∃ u, engineTurn t = .next u ∧ FailedWith 0x11 t u)) ∧
    (s.status.busy = true → hostTurn (.wr 0x00 w) s = .next s) ∧
    hostTurn (.rd 0x00) s = .next { s with answers := s.answers ++ [.word 0] }

/-- R33: while BUSY = 1 a host write to any register changes no state; a host read of any register is answered with its
current value, BUSY = 1 or not, and changes nothing else; the model's own field `synced` (log entry 20) is not spoken of
here. -/
def Obligations.WritesWhileBusyAreIgnored : Prop :=
  ∀ (s : State) (offset : Byte) (v : Word), offset.toNat % 4 = 0 →
    (s.status.busy = true → hostTurn (.wr offset v) s = .next s) ∧
    ∃ r t, regAt offset = some r ∧ hostTurn (.rd offset) s = .next t ∧
      t = { s with answers := s.answers ++ [.word (readReg s r)], synced := t.synced }

/-- R32: with BUSY = 0 a write of any 32-bit value at `0x20 + 4*i` never fails, puts all its bits into `x[i]` and changes
nothing else (R30: no register is aliased to another); a read at that offset returns `x[i]`. -/
def Obligations.OperandRegistersReadBack : Prop :=
  ∀ (s : State) (i : Fin 10) (v : Word),
    (s.status.busy = false →
      ∃ t, hostTurn (.wr (BitVec.ofNat 8 (0x20 + 4 * i.val)) v) s = .next t ∧
        t = { s with x := t.x } ∧ ∀ j : Fin 10, t.x[j] = if j = i then v else s.x[j]) ∧
    hostTurn (.rd (BitVec.ofNat 8 (0x20 + 4 * i.val))) s = .next { s with answers := s.answers ++ [.word s.x[i]] }

/-- 10 R47: STATUS reads as its fields with the reserved bits 0; with BUSY = 0 a write with bit 1 set clears DONE and ERR
and nothing else, a write with bit 1 clear changes nothing. That a read notes in `synced` that the host has seen BUSY = 0 is
the model's choice (log entry 20). -/
def Obligations.StatusReadsAndClears : Prop :=
  ∀ (s : State) (w : Word),
    (∃ v : Word, hostTurn (.rd 0x04) s =
        .next { s with answers := s.answers ++ [.word v], synced := s.synced || !s.status.busy } ∧
      v.toNat = 256 * s.status.err.toNat + 2 * s.status.done.toNat + s.status.busy.toNat) ∧
    (s.status.busy = false → w.getLsbD 1 = true →
      hostTurn (.wr 0x04 w) s = .next { s with status := { busy := false, done := false, err := 0 } }) ∧
    (s.status.busy = false → w.getLsbD 1 = false → hostTurn (.wr 0x04 w) s = .next s)

/-- 10 R48, R49: with BUSY = 0, CTRL and GATE keep bits 1:0 of a written word; bits 31:2 are ignored and read 0. -/
def Obligations.CtrlAndGateKeepTwoBits : Prop :=
  ∀ (s : State) (w : Word), s.status.busy = false →
    (∃ (t : State) (v : Word), hostTurn (.wr 0x08 w) s = .next t ∧ t = { s with ctrl := t.ctrl } ∧
      hostTurn (.rd 0x08) t = .next { t with answers := t.answers ++ [.word v] } ∧ v.toNat = w.toNat % 4 ∧
      t.ctrl = { ieDone := w.getLsbD 0, ieErr := w.getLsbD 1 }) ∧
    (∃ (t : State) (v : Word), hostTurn (.wr 0x0C w) s = .next t ∧ t = { s with gate := t.gate } ∧
      hostTurn (.rd 0x0C) t = .next { t with answers := t.answers ++ [.word v] } ∧ v.toNat = w.toNat % 4 ∧
      t.gate = { en := w.getLsbD 0, verified := w.getLsbD 1 })

/-- 10 R45, R51: CMD and the reserved offsets 0x14..0x1C and 0x48..0xFF read 0; writes to the reserved offsets and to the
read-only OUT_LEN change nothing; OUT_LEN reads its value. -/
def Obligations.ReservedAndReadOnlyOffsets : Prop :=
  ∀ (s : State) (offset : Byte) (w : Word),
    hostTurn (.rd 0x00) s = .next { s with answers := s.answers ++ [.word 0] } ∧
    hostTurn (.rd 0x10) s = .next { s with answers := s.answers ++ [.word s.outLen] } ∧
    hostTurn (.wr 0x10 w) s = .next s ∧
    (offset.toNat % 4 = 0 → (0x14 ≤ offset.toNat ∧ offset.toNat ≤ 0x1C) ∨ 0x48 ≤ offset.toNat →
      hostTurn (.rd offset) s = .next { s with answers := s.answers ++ [.word 0] } ∧ hostTurn (.wr offset w) s = .next s)

/-- R276: the interrupt line is `(IE_DONE and DONE) or (IE_ERR and ERR ≠ 0)`, 0 with both enables 0; sampling it changes
nothing else; with BUSY = 0 an `ack` or the next accepted command clears it. -/
def Obligations.InterruptLine : Prop :=
  ∀ s : State,
    (∃ b : Bool, hostTurn .sampleIrq s = .next { s with answers := s.answers ++ [.line b] } ∧
      (b = true ↔ (s.ctrl.ieDone = true ∧ s.status.done = true) ∨ (s.ctrl.ieErr = true ∧ s.status.err ≠ 0)) ∧
      (s.ctrl.ieDone = false → s.ctrl.ieErr = false → b = false)) ∧
    (s.status.busy = false → ∀ w : Word,
      (w.getLsbD 1 = true → ∃ t, hostTurn (.wr 0x04 w) s = .next t ∧
        hostTurn .sampleIrq t = .next { t with answers := t.answers ++ [.line false] }) ∧
      ∃ t, hostTurn (.wr 0x00 w) s = .next t ∧
        hostTurn .sampleIrq t = .next { t with answers := t.answers ++ [.line false] })

/-- 20 R87, R93(d), 30 R138: with BUSY = 0, and with STATUS read as BUSY = 0 since the last accepted CMD write (`synced`, log
entry 20), `ldm` of bytes that fit in MEM makes every later read of those addresses return them and leaves every other address
alone; `stm` returns what MEM holds and changes nothing else. -/
def Obligations.HostMemoryWindow : Prop :=
  ∀ (s : State) (a : Word) (bs : List Byte) (n : Nat), memWf s.mem = true → s.status.busy = false →
    s.synced = true → a.toNat + bs.length ≤ s.params.memBytes → a.toNat + n ≤ s.params.memBytes →
    (∃ t, hostTurn (.ldm a bs) s = .next t ∧ t = { s with mem := t.mem } ∧ memWf t.mem = true ∧
      ∀ c : Nat, readByte t.mem c =
        if a.toNat ≤ c ∧ c < a.toNat + bs.length then bs.getD (c - a.toNat) 0 else readByte s.mem c) ∧
    hostTurn (.stm a n) s = .next { s with answers := s.answers ++ [.bytes (memRead s.mem a.toNat n)] }

/-- 20 R84, R93; log entries 8, 9 (the spec's own treatment is "refuse", 93 U3 and U5): a host access to MEM while BUSY = 1
and a register access at an offset that is not a multiple of 4 have no meaning. -/
def Obligations.BrokenDutiesAreRefused : Prop :=
  ∀ (s : State) (a : Word) (bs : List Byte) (n : Nat) (offset : Byte) (v : Word),
    (s.status.busy = true → hostTurn (.ldm a bs) s = .refused .memWhileBusy ∧
      hostTurn (.stm a n) s = .refused .memWhileBusy) ∧
    (offset.toNat % 4 ≠ 0 → hostTurn (.wr offset v) s = .refused .registerAccessShape ∧
      hostTurn (.rd offset) s = .refused .registerAccessShape)

/-- 10 R60, 70 R300, R301: a reset event, in any state, leaves every register 0 and the CORE idle; with BUSY = 0 MEM is
unchanged; with BUSY = 1 every MEM byte outside the running command's output ranges is unchanged. The model's choice: that
`rst` is one event, which keeps the parameters, the schedule, the answers and the entropy port's position (log entry 16); that
a running word that names no command has no output range, and that EXTRACT has one only if its image lies in MEM and has
at least 32 bits (log entry 5); that no command is outstanding after it, so that MEM may be used at once (log entry 20). -/
def Obligations.ResetEventClearsRegisters : Prop :=
  ∀ s : State, memWf s.mem = true → ∃ t, hostTurn .rst s = .next t ∧
    (∀ i : Fin 10, t.x[i] = 0) ∧ t.status = { busy := false, done := false, err := 0 } ∧
    t.ctrl = { ieDone := false, ieErr := false } ∧ t.gate = { en := false, verified := false } ∧ t.outLen = 0 ∧
    irq t = false ∧ t.synced = true ∧ t.results = [] ∧ t.params = s.params ∧ t.turns = s.turns ∧
    t.answers = s.answers ∧ t.entropyPos = s.entropyPos ∧
    (s.status.busy = false → t.mem = s.mem) ∧
    (s.status.busy = true → ∀ i, decode s.curCmd = .ok i → memUnchangedOutside (outputRanges i s) s t) ∧
    (s.status.busy = true → (∀ i, decode s.curCmd ≠ .ok i) → t.mem = s.mem)

/-- 10 R60: the register values after reset. CUR_CMD's and MEM's are the model's (log entries 2, 3) and not stated. -/
def Obligations.ResetValues : Prop :=
  (∀ i : Fin 10, State.reset.x[i] = 0) ∧ statusWord State.reset.status = 0 ∧ ctrlWord State.reset.ctrl = 0 ∧
  gateWord State.reset.gate = 0 ∧ State.reset.outLen = 0 ∧ irq State.reset = false

/-! ### The secret -/

/-- R181: `CharCount` in its three units, on the empty string and on one byte in front of others; the default unit; and
`SecretOK`. -/
def Obligations.CharacterCount : Prop :=
  (∀ u, charCount u [] = 0) ∧
  (∀ (b : Byte) (s : List Byte),
    charCount .bytes (b :: s) = charCount .bytes s + 1 ∧
    charCount .codepoints (b :: s) = charCount .codepoints s + (if b &&& 0xC0#8 = 0x80#8 then 0 else 1) ∧
    charCount .utf16units (b :: s) =
      charCount .utf16units s + (if b &&& 0xC0#8 = 0x80#8 then 0 else 1) + (if 0xF0 ≤ b.toNat then 1 else 0)) ∧
  State.reset.params.secretLenUnit = .codepoints ∧
  (∀ u s, secretOK u s = true ↔ 32 ≤ charCount u s)

/-! ### Synchronisation -/

/-- 20 R93(a), (b) and R94: the accepted CMD write and the STATUS read with BUSY = 0 are the synchronisation points, and no
fence is needed. The accepted write leaves MEM, the operand registers, CTRL and GATE as the host has made them; until the
engine's turn no host step but a reset changes anything a command can see, so the engine's step sees exactly them. A STATUS read
shows BUSY in bit 0; and with BUSY = 0 an engine turn changes nothing, so all effects of the command come before that read.
That host and engine take turns from a schedule, and that reads are collected, is the model's choice (log entry 6); so is that
`synced` records the window between the two points (log entry 20). -/
def Obligations.CmdWriteAndStatusReadSynchronise : Prop :=
  (∀ (s : State) (w : Word), s.status.busy = false →
    ∃ t, hostTurn (.wr 0x00 w) s = .next t ∧ t.status.busy = true ∧ t.curCmd = w ∧ t.synced = false ∧
      t.mem = s.mem ∧ t.x = s.x ∧ t.ctrl = s.ctrl ∧ t.gate = s.gate) ∧
  (∀ (s t : State) (op : HostOp) (ts : List Turn), s.status.busy = true → s.turns = .host op :: ts → op ≠ .rst →
    step s = .next t → t = { s with turns := ts, answers := t.answers }) ∧
  (∀ s : State, ∃ v : Word, hostTurn (.rd 0x04) s =
      .next { s with answers := s.answers ++ [.word v], synced := s.synced || !s.status.busy } ∧
    (v.getLsbD 0 = false ↔ s.status.busy = false)) ∧
  (∀ s : State, s.status.busy = false → engineNext s → step s = .next (dropTurn s))

/-- 20 R93(c), R94, 70 R310: the window between the accepted CMD write and the STATUS read that returned BUSY = 0. Only an
accepted CMD write opens it; only such a read closes it, or a reset. That the model's own field `synced` records the window, and
that a reset closes it, is the model's choice (log entry 20): R93 and R310 name no reset, and the choice leans on 10 R60 and 70
R302. -/
def Obligations.OnlyStatusReadOrResetClosesTheWindow : Prop :=
  ∀ s t : State, step s = .next t →
    (s.synced = false → t.synced = true →
      (hostNext s (.rd 0x04) ∧ s.status.busy = false) ∨ hostNext s .rst) ∧
    (s.synced = true → t.synced = false → s.status.busy = false ∧ ∃ w, hostNext s (.wr 0x00 w))

/-- 20 R93(c), 00 R16, 70 R310: with BUSY = 0 but STATUS not yet read, a host access to MEM happens, with unspecified values.
`stm` answers some bytes, as many as asked for, and changes no register and no byte of MEM. `ldm` of a byte or more puts its
bytes into MEM and makes the result of every command since the last such read unspecified: ERR is some code of the table, OUT_LEN
some length up to MEM_BYTES, 0 beside an error, and the bytes of the results' ranges are anything; nothing else changes: no byte of MEM outside the bytes
written and those ranges, no other register, not BUSY or DONE. That the access happens rather than stops, and the
limits on ERR and OUT_LEN, are the model's choice (log entry 20). -/
def Obligations.UnsynchronisedMemoryAccess : Prop :=
  ∀ (s : State) (a : Word) (bs : List Byte) (n : Nat), Inv s → s.status.busy = false → s.synced = false →
    a.toNat + bs.length ≤ s.params.memBytes → a.toNat + n ≤ s.params.memBytes →
    (∃ v : List Byte, v.length = n ∧
      hostTurn (.stm a n) s = .next { s with answers := s.answers ++ [.bytes v], freePos := s.freePos + n }) ∧
    (bs ≠ [] → ∃ t, hostTurn (.ldm a bs) s = .next t ∧
      t = { s with status := { s.status with err := t.status.err }, outLen := t.outLen, mem := t.mem, freePos := t.freePos } ∧
      t.status.err ∈ errorCodes ∧ (s.status.done = false → t.status.err = s.status.err) ∧
      (t.status.err ≠ 0 → t.outLen = 0) ∧ t.outLen.toNat ≤ s.params.memBytes ∧ memWf t.mem = true ∧
      ∀ c : Nat, (∀ r ∈ s.results, c < r.base ∨ r.base + r.len ≤ c) →
        readByte t.mem c =
          if a.toNat ≤ c ∧ c < a.toNat + bs.length then bs.getD (c - a.toNat) 0 else readByte s.mem c)

/-- 20 R90, R93(c), 00 R16: the ranges noted when a command word is accepted are that command's output ranges as far as they
lie in MEM (none for a word that names no command), beside those of the earlier commands since the host last read BUSY = 0; no
step but an accepted CMD write or a reset changes what is noted. That it is noted, and when, is the model's choice (log entry
20). -/
def Obligations.ResultRangesAreOutputRanges : Prop :=
  (∀ (s t : State) (w : Word), s.status.busy = false → hostTurn (.wr 0x00 w) s = .next t → ∀ c : Nat,
    ((∃ r ∈ t.results, r.base ≤ c ∧ c < r.base + r.len) ↔
      (s.synced = false ∧ ∃ r ∈ s.results, r.base ≤ c ∧ c < r.base + r.len) ∨
      (c < s.params.memBytes ∧
        ∃ i, decode w = .ok i ∧ ∃ r ∈ outputRanges i s, r.base ≤ c ∧ c < r.base + r.len))) ∧
  (∀ s t : State, step s = .next t →
    t.results = s.results ∨ hostNext s .rst ∨ (s.status.busy = false ∧ ∃ w, hostNext s (.wr 0x00 w)))
end

