-- ==== Sys2Proof/Laws/Aes.lean ====
section
/-! SUPPORT. The small lemmas of AES-256: what the S-box, MixColumns and the block of bytes can be undone by. -/

namespace Sys2Proof.Machine

/-- The S-box has an inverse: the 256 bytes of the number below, byte `b` undoing `SBOX` at `b`. -/
theorem sbox_hasLeftInverse : ∃ f : Byte → Byte, ∀ b, f (sbox b) = b :=
  ⟨fun b => BitVec.ofNat 8 ((
    0x7d0c2155631469e126d677ba7e042b17619953833cbbebc8b0f52aae4d3be0a0ef9cc9939f7ae52d0d4ab519a97f5160 * 2 ^ 1664 +
    0x5fec8027591012b131c7078833a8dd1ff45acd78fec0db9a2079d2c64b3e56fc1bbe18aa0e62b76f89c5291d711af147 * 2 ^ 1280 +
    0x6edf751ce837f9e28535ade72274ac9673e6b4f0cecff297eadc674f4111913a6b8a130103bdafc1020f3fca8f1e2cd0 * 2 ^ 896 +
    0x0645b3b80558e4f70ad3bc8c00abd890849d8da75746155edab9edfd5048706c92b6655dcc5ca4d41698688664f6f872 * 2 ^ 512 +
    0x25d18b6d49a25b76b224d92866a12e084ec3fa420b954cee3d23c2a632947b54cbe9dec444438e3487ff2f9b8239e37c * 2 ^ 128 +
    0xfbd7f3819ea340bf38a53630d56a0952) >>> (8 * b.toNat)), by decide +kernel⟩

theorem gf8Mul_two : ∀ a : Byte, gf8Mul a 2 = xtime a := by decide +kernel

theorem gf8Mul_three : ∀ a : Byte, gf8Mul a 3 = xtime a ^^^ a := by decide +kernel

/-- Multiplication by `x` is linear. -/
theorem xtime_xor (a b : Byte) : xtime (a ^^^ b) = xtime a ^^^ xtime b := by
  have h : (a ^^^ b) <<< 1 = a <<< 1 ^^^ b <<< 1 := by
    ext i hi
    by_cases h0 : i = 0 <;> simp [h0, BitVec.getElem_shiftLeft]
  have c : ∀ x y k : Byte, x ^^^ k ^^^ (y ^^^ k) = x ^^^ y := by
    intro x y k
    rw [BitVec.xor_comm y k, BitVec.xor_assoc, ← BitVec.xor_assoc k, BitVec.xor_self, BitVec.zero_xor]
  simp only [xtime, BitVec.msb_xor, h]
  cases a.msb <;> cases b.msb
  · rfl
  · exact BitVec.xor_assoc _ _ _
  · show a <<< 1 ^^^ b <<< 1 ^^^ 27#8 = a <<< 1 ^^^ 27#8 ^^^ b <<< 1
    rw [BitVec.xor_assoc, BitVec.xor_comm (b <<< 1), BitVec.xor_assoc]
  · exact (c _ _ _).symm

theorem byte_xor_left_comm (a b c : Byte) : a ^^^ (b ^^^ c) = b ^^^ (a ^^^ c) := by
  rw [← BitVec.xor_assoc, BitVec.xor_comm a b, BitVec.xor_assoc]

/-- Two MixColumns of a column multiply by `x^2 + 1` and cross over by `x^2` (the square of R165's matrix). -/
theorem mixColumn_mixColumn (w : AesWord) : mixColumn (mixColumn w) =
    ⟨xtime (xtime w.a0) ^^^ w.a0 ^^^ xtime (xtime w.a2), xtime (xtime w.a1) ^^^ w.a1 ^^^ xtime (xtime w.a3),
     xtime (xtime w.a2) ^^^ w.a2 ^^^ xtime (xtime w.a0), xtime (xtime w.a3) ^^^ w.a3 ^^^ xtime (xtime w.a1)⟩ := by
  simp only [mixColumn, gf8Mul_two, gf8Mul_three, xtime_xor, AesWord.mk.injEq]
  generalize xtime (xtime w.a0) = x0
  generalize xtime (xtime w.a1) = x1
  generalize xtime (xtime w.a2) = x2
  generalize xtime (xtime w.a3) = x3
  generalize xtime w.a0 = y0
  generalize xtime w.a1 = y1
  generalize xtime w.a2 = y2
  generalize xtime w.a3 = y3
  generalize w.a0 = z0
  generalize w.a1 = z1
  generalize w.a2 = z2
  generalize w.a3 = z3
  refine ⟨?_, ?_, ?_, ?_⟩ <;>
    simp [BitVec.xor_assoc, BitVec.xor_comm, byte_xor_left_comm]

/-- The number of a block made of at most 16 bytes is the number those bytes spell. -/
theorem foldl_block_toNat (l : List Byte) (acc : Block) (h : acc.toNat < 2 ^ (128 - 8 * l.length))
    (hl : 8 * l.length ≤ 128) :
    (l.foldl (fun (X : Block) (b : Byte) => (X <<< 8) ||| b.setWidth 128) acc).toNat =
      l.foldl (fun (n : Nat) (b : Byte) => 256 * n + b.toNat) acc.toNat := by
  induction l generalizing acc with
  | nil => rfl
  | cons b l ih =>
    simp only [List.length_cons] at h hl
    have e : 2 ^ (128 - 8 * l.length) = 256 * 2 ^ (128 - 8 * (l.length + 1)) := by
      rw [show 128 - 8 * l.length = 8 + (128 - 8 * (l.length + 1)) by omega, Nat.pow_add]
    have hp : 2 ^ (128 - 8 * l.length) ≤ 2 ^ 128 := Nat.pow_le_pow_right (by omega) (by omega)
    have hb := b.isLt
    have hv : (acc <<< 8 ||| b.setWidth 128).toNat = 256 * acc.toNat + b.toNat := by
      simp only [BitVec.toNat_or, BitVec.toNat_shiftLeft, BitVec.toNat_setWidth]
      rw [Nat.mod_eq_of_lt (a := b.toNat) (by omega), Nat.mod_eq_of_lt (by rw [Nat.shiftLeft_eq]; omega),
        ← Nat.shiftLeft_add_eq_or_of_lt hb, Nat.shiftLeft_eq]
      omega
    simp only [List.foldl_cons]
    rw [ih _ (by rw [hv]; omega) (by omega), hv]

end Sys2Proof.Machine
end

