-- ==== Sys2Proof/Laws/BitPack.lean ====
section
/-! SUPPORT. The small lemmas of bit packing, framing and bit-plane indexing: lengths, elements, one byte at a time. -/

namespace Sys2Proof.Machine

@[simp] theorem be32_length (n : Nat) : (be32 n).length = 4 := rfl

@[simp] theorem be64_length (n : Nat) : (be64 n).length = 8 := rfl

/-- `unbe32` is the inverse of `be32` (R11). -/
theorem unbe32_be32 {n : Nat} (h : n < 2 ^ 32) : unbe32 (be32 n) = n := by
  simp only [unbe32, be32, List.foldl, BitVec.toNat_ofNat]
  omega

@[simp] theorem frame_length (p : List Byte) : (frame p).length = 4 + p.length := by simp [frame]

@[simp] theorem byteBits_length (b : Byte) : (byteBits b).length = 8 := by simp [byteBits]

@[simp] theorem bits_nil : bits [] = [] := rfl

@[simp] theorem bits_cons (b : Byte) (s : List Byte) : bits (b :: s) = byteBits b ++ bits s := rfl

theorem bits_append (s t : List Byte) : bits (s ++ t) = bits s ++ bits t := by simp [bits]

@[simp] theorem bits_length (s : List Byte) : (bits s).length = 8 * s.length := by
  induction s with
  | nil => rfl
  | cons b s ih => simp [ih]; omega

/-- The eight bits of a byte make the byte again (R220, R221 on one byte). -/
theorem byteOfBits_getLsbD (b : Byte) :
    byteOfBits (b.getLsbD 7) (b.getLsbD 6) (b.getLsbD 5) (b.getLsbD 4) (b.getLsbD 3) (b.getLsbD 2) (b.getLsbD 1)
      (b.getLsbD 0) = b := by
  revert b
  decide +kernel

theorem byteBits_eq (b : Byte) :
    byteBits b = [b.getLsbD 7, b.getLsbD 6, b.getLsbD 5, b.getLsbD 4, b.getLsbD 3, b.getLsbD 2, b.getLsbD 1,
      b.getLsbD 0] := rfl

/-- The bits of a byte made of eight bits (R220, R221 on one byte). -/
theorem byteBits_byteOfBits (b0 b1 b2 b3 b4 b5 b6 b7 : Bool) :
    byteBits (byteOfBits b0 b1 b2 b3 b4 b5 b6 b7) = [b0, b1, b2, b3, b4, b5, b6, b7] := by
  revert b0 b1 b2 b3 b4 b5 b6 b7
  decide +kernel

/-- Unpacking one byte's worth of bits in front of others. -/
theorem bytes_byteBits_append (b : Byte) (r : List Bool) : bytes (byteBits b ++ r) = b :: bytes r := by
  rw [byteBits_eq]
  simp only [List.cons_append, List.nil_append, bytes, byteOfBits_getLsbD]

@[simp] theorem readBits_length (px : List Byte) (a n : Nat) : (readBits px a n).length = n := by simp [readBits]

theorem readBits_getElem (px : List Byte) (a n k : Nat) (h : k < (readBits px a n).length) :
    (readBits px a n)[k] = (px.getD (off (a + k)) 0).getLsbD 0 := by
  simp [readBits]

theorem off_eq (i : Nat) : off i = 4 * (i / 3) + i % 3 := rfl

/-- The byte at offset `o` carries bit index `i` exactly when `o = Off(i)` (R224). -/
theorem bitIndexAt_eq_some_iff (o i : Nat) : bitIndexAt o = some i ↔ o = off i := by
  simp only [bitIndexAt, subchannelToBitIndex, off_eq]
  split
  · simp only [Option.some.injEq]
    omega
  · simp only [reduceCtorEq, false_iff]
    omega

/-- A used bit index lies inside a pixel buffer of as many pixels as the capacity needs. -/
theorem off_lt_of_lt_capacity {i W H : Nat} (h : i < capacity W H) : off i < imageBytes W H := by
  simp only [capacity, imageBytes, off_eq, Nat.mul_assoc] at *
  generalize W * H = n at *
  omega

@[simp] theorem embedBits_length (px : List Byte) (bs : List Bool) : (embedBits px bs).length = px.length := by
  simp [embedBits]

theorem embedBits_getElem (px : List Byte) (bs : List Bool) (o : Nat) (h : o < (embedBits px bs).length) :
    (embedBits px bs)[o] = embedByte bs o (px[o]'(by simpa using h)) := by
  simp [embedBits]

theorem embedByte_off {bs : List Bool} {i : Nat} (b : Byte) (h : i < bs.length) :
    embedByte bs (off i) b = setLowBit b bs[i] := by
  have : bitIndexAt (off i) = some i := (bitIndexAt_eq_some_iff _ _).2 rfl
  simp [embedByte, this, h]

theorem embedByte_unused {bs : List Bool} {o : Nat} (b : Byte) (h : ∀ i, i < bs.length → o ≠ off i) :
    embedByte bs o b = b := by
  unfold embedByte
  split
  · next i hi =>
    have ho := (bitIndexAt_eq_some_iff _ _).1 hi
    have : bs.length ≤ i := by
      by_contra hlt
      exact h i (by omega) ho
    simp [List.getElem?_eq_none this]
  · rfl

@[simp] theorem setLowBit_getLsbD_zero (b : Byte) (v : Bool) : (setLowBit b v).getLsbD 0 = v := by
  revert b v
  decide +kernel

/-- Setting bit 0 leaves bits 7:1 alone. -/
theorem setLowBit_getLsbD_succ (b : Byte) (v : Bool) (j : Nat) : (setLowBit b v).getLsbD (j + 1) = b.getLsbD (j + 1) := by
  by_cases h : j + 1 < 8
  · have key : ∀ (b : Byte) (v : Bool) (j : Fin 8), j.val ≠ 0 → (setLowBit b v).getLsbD j.val = b.getLsbD j.val := by
      decide +kernel
    exact key b v ⟨j + 1, h⟩ (by simp)
  · rw [BitVec.getLsbD_of_ge _ _ (by omega), BitVec.getLsbD_of_ge _ _ (by omega)]

theorem setLowBit_setLowBit (b : Byte) (u v : Bool) : setLowBit (setLowBit b u) v = setLowBit b v := by
  revert b u v
  decide +kernel

end Sys2Proof.Machine
end

