-- ==== Sys2Proof/Laws/Gcm.lean ====
section
/-! SUPPORT. The small lemmas of the AEAD primitives: lengths, and that the keystream XOR undoes itself. -/

namespace Sys2Proof.Machine

@[simp] theorem blockBytes_length (X : Block) : (blockBytes X).length = 16 := by simp [blockBytes]

@[simp] theorem gcmTag_length (K iv C : List Byte) : (gcmTag K iv C).length = 16 := by simp [gcmTag]

@[simp] theorem xorBytes_length (s t : List Byte) : (xorBytes s t).length = min s.length t.length := by simp [xorBytes]

/-- XOR with the same bytes twice gives the string back. -/
theorem xorBytes_xorBytes {s t : List Byte} (h : s.length ≤ t.length) : xorBytes (xorBytes s t) t = s := by
  apply List.ext_getElem (by simp [h])
  intro k h1 h2
  simp [xorBytes]

@[simp] theorem gctrBlocks_zero (K : List Byte) (cb : Block) (X : List Byte) : gctrBlocks K 0 cb X = [] := rfl

theorem gctrBlocks_succ (K : List Byte) (n : Nat) (cb : Block) (X : List Byte) :
    gctrBlocks K (n + 1) cb X =
      xorBytes (X.take 16) (blockBytes (aes256 K cb)) ++ gctrBlocks K n (inc32 cb) (X.drop 16) := rfl

theorem gctrBlocks_length (K : List Byte) (n : Nat) (cb : Block) (X : List Byte) (h : X.length ≤ 16 * n) :
    (gctrBlocks K n cb X).length = X.length := by
  induction n generalizing cb X with
  | zero => simp; omega
  | succ n ih =>
    rw [gctrBlocks_succ, List.length_append, ih _ _ (by simp; omega)]
    simp
    omega

/-- `len(GCTR(K, ICB, X)) = len(X)` (R173). -/
@[simp] theorem gctr_length (K : List Byte) (cb : Block) (X : List Byte) : (gctr K cb X).length = X.length :=
  gctrBlocks_length _ _ _ _ (by omega)

/-- The keystream applied twice gives the string back. -/
theorem gctrBlocks_gctrBlocks (K : List Byte) (n : Nat) (cb : Block) (X : List Byte) (h : X.length ≤ 16 * n) :
    gctrBlocks K n cb (gctrBlocks K n cb X) = X := by
  induction n generalizing cb X with
  | zero =>
    have : X = [] := List.length_eq_zero_iff.mp (by omega)
    simp [this]
  | succ n ih =>
    have hlen : (gctrBlocks K n (inc32 cb) (X.drop 16)).length = (X.drop 16).length :=
      gctrBlocks_length _ _ _ _ (by simp; omega)
    have ha : (xorBytes (X.take 16) (blockBytes (aes256 K cb))).length = min 16 X.length := by simp
    rw [gctrBlocks_succ K n cb X, gctrBlocks_succ]
    by_cases hX : 16 ≤ X.length
    · have ha' : (xorBytes (X.take 16) (blockBytes (aes256 K cb))).length = 16 := by omega
      rw [List.take_append_of_le_length (by omega), List.take_of_length_le (by omega),
        xorBytes_xorBytes (by simp), List.drop_append_of_le_length (by omega), List.drop_eq_nil_of_le (by omega),
        List.nil_append, ih _ _ (by simp; omega), List.take_append_drop]
    · have hd : X.drop 16 = [] := List.drop_eq_nil_of_le (by omega)
      have hn : gctrBlocks K n (inc32 cb) [] = [] := List.length_eq_zero_iff.mp (by
        rw [gctrBlocks_length _ _ _ _ (by simp)]; rfl)
      rw [hd, hn, List.append_nil, List.take_of_length_le (by omega), xorBytes_xorBytes (by simp),
        List.drop_eq_nil_of_le (by omega), hn, List.append_nil, List.take_of_length_le (by omega)]

theorem gctr_gctr (K : List Byte) (cb : Block) (X : List Byte) : gctr K cb (gctr K cb X) = X := by
  have h := gctrBlocks_gctrBlocks K ((X.length + 15) / 16) cb X (by omega)
  simpa only [gctr, gctrBlocks_length K ((X.length + 15) / 16) cb X (by omega)] using h

@[simp] theorem deriveKey_length (s : List Byte) : (deriveKey s).length = 32 := by simp [deriveKey]

/-- `len(envelope) = 12 + 16 + len(plaintext)` for a 12-byte IV (R130). -/
theorem sealEnvelope_length (K iv P : List Byte) (h : iv.length = 12) :
    (sealEnvelope K iv P).length = 28 + P.length := by
  simp [sealEnvelope, gcmAE, h]
  omega

/-- Opening splits an envelope at 12 and 28 (R131). -/
theorem openEnvelope_parts (K iv T C : List Byte) (hi : iv.length = 12) (hT : T.length = 16) :
    openEnvelope K (iv ++ T ++ C) = gcmAD K iv C T := by
  have h1 : (iv ++ T ++ C).take 12 = iv := by
    rw [List.append_assoc, List.take_append_of_le_length (by omega), List.take_of_length_le (by omega)]
  have h2 : (iv ++ T ++ C).drop 28 = C := by
    rw [List.drop_append, List.drop_eq_nil_of_le (by simp; omega)]
    simp [hi, hT]
  have h3 : slice (iv ++ T ++ C) 12 16 = T := by
    rw [slice, List.append_assoc, List.drop_append_of_le_length (by omega), List.drop_eq_nil_of_le (by omega),
      List.nil_append, List.take_append_of_le_length (by omega), List.take_of_length_le (by omega)]
  simp only [openEnvelope, h1, h2, h3]

/-- What opening gives, when it gives something, is as long as the ciphertext (R178(b)). -/
theorem openEnvelope_length {K env p : List Byte} (h : openEnvelope K env = some p) : p.length = env.length - 28 := by
  unfold openEnvelope gcmAD at h
  split at h
  · cases h
    simp
  · cases h

end Sys2Proof.Machine
end

