-- ==== Sys2Proof/Laws/Memory.lean ====
section
/-! SUPPORT. What the memory operations do: the canonical form is kept, a read after a write gives the value written, a write
leaves every other address alone. -/

namespace Sys2Proof.Machine

theorem memWfFrom_mono {lo lo' : Nat} {m : Memory} (h : lo' ≤ lo) (w : memWfFrom lo m = true) :
    memWfFrom lo' m = true := by
  cases m with
  | nil => rfl
  | cons c m =>
    obtain ⟨k, b⟩ := c
    simp only [memWfFrom, Bool.and_eq_true, decide_eq_true_eq] at w ⊢
    exact ⟨⟨by omega, w.1.2⟩, w.2⟩

/-- Below its lowest address a canonical memory reads as unlisted. -/
theorem readByte_of_lt {lo a : Nat} {m : Memory} (w : memWfFrom lo m = true) (h : a < lo) :
    readByte m a = unlistedByte := by
  induction m generalizing lo with
  | nil => rfl
  | cons c m ih =>
    obtain ⟨k, b⟩ := c
    simp only [memWfFrom, Bool.and_eq_true, decide_eq_true_eq] at w
    have : a ≠ k := by omega
    simp only [readByte, this, if_false]
    exact ih w.2 (by omega)

theorem writeByte_wfFrom {lo a : Nat} {m : Memory} {v : Byte} (w : memWfFrom lo m = true) (h : lo ≤ a) :
    memWfFrom lo (writeByte m a v) = true := by
  induction m generalizing lo with
  | nil =>
    by_cases hv : v = unlistedByte
    · simp [writeByte, hv, memWfFrom]
    · simp [writeByte, hv, memWfFrom, h]
  | cons c m ih =>
    obtain ⟨k, b⟩ := c
    have w' := w
    simp only [memWfFrom, Bool.and_eq_true, decide_eq_true_eq] at w'
    obtain ⟨⟨hk, hb⟩, hm⟩ := w'
    rcases Nat.lt_trichotomy a k with hlt | heq | hgt
    · by_cases hv : v = unlistedByte
      · simpa [writeByte, hlt, hv] using w
      · simp only [writeByte, hlt, hv, if_true, if_false, memWfFrom, Bool.and_eq_true, decide_eq_true_eq]
        exact ⟨⟨h, by simpa using hv⟩, ⟨by omega, hb⟩, hm⟩
    · subst heq
      by_cases hv : v = unlistedByte
      · simp only [writeByte, Nat.lt_irrefl, hv, if_true, if_false]
        exact memWfFrom_mono (by omega) hm
      · simp only [writeByte, Nat.lt_irrefl, hv, if_true, if_false, memWfFrom, Bool.and_eq_true, decide_eq_true_eq]
        exact ⟨⟨h, by simpa using hv⟩, hm⟩
    · have h1 : ¬ a < k := by omega
      have h2 : ¬ a = k := by omega
      simp only [writeByte, h1, h2, if_false, memWfFrom, Bool.and_eq_true, decide_eq_true_eq]
      exact ⟨⟨hk, hb⟩, ih hm (by omega)⟩

/-- A write keeps the canonical form. -/
theorem writeByte_wf {a : Nat} {m : Memory} {v : Byte} (w : memWf m = true) : memWf (writeByte m a v) = true :=
  writeByte_wfFrom w (Nat.zero_le a)

theorem readByte_writeByte_from {lo a c : Nat} {m : Memory} {v : Byte} (w : memWfFrom lo m = true) :
    readByte (writeByte m a v) c = if c = a then v else readByte m c := by
  induction m generalizing lo with
  | nil =>
    by_cases hv : v = unlistedByte
    · simp [writeByte, hv, readByte]
    · simp [writeByte, hv, readByte]
  | cons e m ih =>
    obtain ⟨k, b⟩ := e
    simp only [memWfFrom, Bool.and_eq_true, decide_eq_true_eq] at w
    obtain ⟨⟨hk, hb⟩, hm⟩ := w
    rcases Nat.lt_trichotomy a k with hlt | heq | hgt
    · by_cases hv : v = unlistedByte
      · simp only [writeByte, hlt, hv, if_true]
        by_cases hc : c = a
        · subst hc
          have : c ≠ k := by omega
          simp only [readByte, this, if_false, if_true]
          exact readByte_of_lt hm (by omega)
        · simp [hc]
      · simp [writeByte, hlt, hv, readByte]
    · subst heq
      by_cases hv : v = unlistedByte
      · simp only [writeByte, Nat.lt_irrefl, hv, if_true, if_false]
        by_cases hc : c = a
        · subst hc
          simp only [if_true]
          exact readByte_of_lt hm (by omega)
        · simp [hc, readByte]
      · simp only [writeByte, Nat.lt_irrefl, hv, if_true, if_false, readByte]
        by_cases hc : c = a <;> simp [hc]
    · have h1 : ¬ a < k := by omega
      have h2 : ¬ a = k := by omega
      simp only [writeByte, h1, h2, if_false, readByte]
      by_cases hck : c = k
      · have : c ≠ a := by omega
        simp [hck, Ne.symm h2]
      · simp only [hck, if_false]
        exact ih hm

/-- The whole of what a one-byte write does to reads. -/
theorem readByte_writeByte {a c : Nat} {m : Memory} {v : Byte} (w : memWf m = true) :
    readByte (writeByte m a v) c = if c = a then v else readByte m c :=
  readByte_writeByte_from w

theorem memBelow_iff {bound : Nat} {m : Memory} : memBelow bound m = true ↔ ∀ c ∈ m, c.1 < bound := by
  simp [memBelow]

theorem mem_writeByte {a : Nat} {m : Memory} {v : Byte} {c : Host.Cell} (h : c ∈ writeByte m a v) :
    c = (a, v) ∨ c ∈ m := by
  induction m with
  | nil => by_cases hv : v = unlistedByte <;> simp_all [writeByte]
  | cons e m ih =>
    obtain ⟨k, b⟩ := e
    unfold writeByte at h
    split at h
    · split at h
      · exact Or.inr h
      · simpa using h
    · split at h
      · split at h
        · exact Or.inr (List.mem_cons_of_mem _ h)
        · rcases List.mem_cons.mp h with h | h
          · exact Or.inl h
          · exact Or.inr (List.mem_cons_of_mem _ h)
      · rcases List.mem_cons.mp h with h | h
        · exact Or.inr (by simp [h])
        · rcases ih h with h | h
          · exact Or.inl h
          · exact Or.inr (List.mem_cons_of_mem _ h)

/-- A write below the bound keeps every listed address below it. -/
theorem writeByte_below {a bound : Nat} {m : Memory} {v : Byte} (w : memBelow bound m = true) (h : a < bound) :
    memBelow bound (writeByte m a v) = true := by
  rw [memBelow_iff] at w ⊢
  intro c hc
  rcases mem_writeByte hc with rfl | hc
  · exact h
  · exact w c hc

theorem memWrite_wf {a : Nat} {m : Memory} {s : List Byte} (w : memWf m = true) : memWf (memWrite m a s) = true := by
  induction s generalizing m a with
  | nil => exact w
  | cons b s ih => exact ih (writeByte_wf w)

theorem memWrite_below {a bound : Nat} {m : Memory} {s : List Byte} (w : memBelow bound m = true)
    (h : a + s.length ≤ bound) : memBelow bound (memWrite m a s) = true := by
  induction s generalizing m a with
  | nil => exact w
  | cons b s ih =>
    simp only [List.length_cons] at h
    exact ih (writeByte_below w (by omega)) (by omega)

/-- The whole of what `MemWrite` does to reads (R12). -/
theorem readByte_memWrite {a c : Nat} {m : Memory} {s : List Byte} (w : memWf m = true) :
    readByte (memWrite m a s) c = if a ≤ c then (s[c - a]?).getD (readByte m c) else readByte m c := by
  induction s generalizing m a with
  | nil => simp [memWrite]
  | cons b s ih =>
    simp only [memWrite]
    rw [ih (writeByte_wf w), readByte_writeByte w]
    by_cases h1 : a + 1 ≤ c
    · have h2 : a ≤ c := by omega
      have h3 : c ≠ a := by omega
      obtain ⟨d, hd⟩ : ∃ d, c - a = d + 1 := ⟨c - a - 1, by omega⟩
      have h4 : c - (a + 1) = d := by omega
      simp [h1, h2, h3, hd, h4]
    · by_cases h5 : c = a
      · subst h5
        simp
      · have h6 : ¬ a ≤ c := by omega
        simp [h1, h5, h6]

/-- Inside the written range a read gives the byte written. -/
theorem readByte_memWrite_inside {a k : Nat} {m : Memory} {s : List Byte} (w : memWf m = true) (h : k < s.length) :
    readByte (memWrite m a s) (a + k) = s[k] := by
  rw [readByte_memWrite w]
  simp [h]

/-- Outside the written range nothing changes. -/
theorem readByte_memWrite_outside {a c : Nat} {m : Memory} {s : List Byte} (w : memWf m = true)
    (h : c < a ∨ a + s.length ≤ c) : readByte (memWrite m a s) c = readByte m c := by
  rw [readByte_memWrite w]
  by_cases h1 : a ≤ c
  · have h2 : s.length ≤ c - a := by omega
    simp [h1, List.getElem?_eq_none h2]
  · simp [h1]

@[simp] theorem memRead_length (m : Memory) (a n : Nat) : (memRead m a n).length = n := by simp [memRead]

theorem memRead_getElem (m : Memory) (a n k : Nat) (h : k < (memRead m a n).length) :
    (memRead m a n)[k] = readByte m (a + k) := by
  simp [memRead]

/-- Two reads agree when every byte does. -/
theorem memRead_congr {m m' : Memory} {a n : Nat} (h : ∀ k, k < n → readByte m (a + k) = readByte m' (a + k)) :
    memRead m a n = memRead m' a n := by
  apply List.ext_getElem (by simp)
  intro k h1 h2
  simp only [memRead_length] at h1
  simp only [memRead_getElem]
  exact h k h1

theorem memRead_take (m : Memory) (a n k : Nat) (h : k ≤ n) : (memRead m a n).take k = memRead m a k := by
  apply List.ext_getElem (by simp [h])
  intro j h1 h2
  simp [memRead]

theorem memRead_drop (m : Memory) (a n k : Nat) : (memRead m a n).drop k = memRead m (a + k) (n - k) := by
  apply List.ext_getElem (by simp)
  intro j h1 h2
  simp [memRead, Nat.add_assoc]

/-- Reading back a whole write. -/
theorem memRead_memWrite_same {a : Nat} {m : Memory} {s : List Byte} (w : memWf m = true) :
    memRead (memWrite m a s) a s.length = s := by
  apply List.ext_getElem (by simp)
  intro k h1 h2
  rw [memRead_getElem, readByte_memWrite_inside w h2]

/-- Reading a range disjoint from a write. -/
theorem memRead_memWrite_other {a b n : Nat} {m : Memory} {s : List Byte} (w : memWf m = true)
    (h : n = 0 ∨ s.length = 0 ∨ b + n ≤ a ∨ a + s.length ≤ b) :
    memRead (memWrite m a s) b n = memRead m b n := by
  apply memRead_congr
  intro k hk
  rcases h with h | h | h | h
  · omega
  · simp [List.length_eq_zero_iff.mp h, memWrite]
  · exact readByte_memWrite_outside w (Or.inl (by omega))
  · exact readByte_memWrite_outside w (Or.inr (by omega))

@[simp] theorem memWriteAll_nil (m : Memory) : memWriteAll m [] = m := rfl

@[simp] theorem memWriteAll_cons (m : Memory) (w : Nat × List Byte) (ws : List (Nat × List Byte)) :
    memWriteAll m (w :: ws) = memWriteAll (memWrite m w.1 w.2) ws := rfl

theorem memWriteAll_wf {m : Memory} {ws : List (Nat × List Byte)} (w : memWf m = true) :
    memWf (memWriteAll m ws) = true := by
  induction ws generalizing m with
  | nil => exact w
  | cons c ws ih => exact ih (memWrite_wf w)

theorem memWriteAll_below {m : Memory} {bound : Nat} {ws : List (Nat × List Byte)} (w : memBelow bound m = true)
    (h : ∀ c ∈ ws, c.1 + c.2.length ≤ bound) : memBelow bound (memWriteAll m ws) = true := by
  induction ws generalizing m with
  | nil => exact w
  | cons c ws ih =>
    exact ih (memWrite_below w (h c (by simp))) (fun d hd => h d (by simp [hd]))

/-- Outside every written range nothing changes. -/
theorem readByte_memWriteAll_outside {m : Memory} {a : Nat} {ws : List (Nat × List Byte)} (w : memWf m = true)
    (h : ∀ c ∈ ws, a < c.1 ∨ c.1 + c.2.length ≤ a) : readByte (memWriteAll m ws) a = readByte m a := by
  induction ws generalizing m with
  | nil => rfl
  | cons c ws ih =>
    rw [memWriteAll_cons, ih (memWrite_wf w) (fun d hd => h d (by simp [hd]))]
    exact readByte_memWrite_outside w (h c (by simp))

@[simp] theorem drawBytes_length (s : State) (k n : Nat) : (drawBytes s k n).length = n := by simp [drawBytes]

theorem drawBytes_getElem (s : State) (k n j : Nat) (h : j < (drawBytes s k n).length) :
    (drawBytes s k n)[j] = Config.entropyByte (s.entropyPos + k + j) := by
  simp [drawBytes]

end Sys2Proof.Machine
end

