-- ==== Sys2Proof/Laws/State.lean ====
section
/-! SUPPORT. One lemma per field per update, so that no later proof unfolds a record update. -/

namespace Sys2Proof.Machine

section FieldsCompleteFail
variable (s : State) (e : Error)
@[simp] theorem completeFail_x : (completeFail s e).x = s.x := rfl
@[simp] theorem completeFail_status : (completeFail s e).status = ⟨false, true, errorCode e⟩ := rfl
@[simp] theorem completeFail_ctrl : (completeFail s e).ctrl = s.ctrl := rfl
@[simp] theorem completeFail_gate : (completeFail s e).gate = s.gate := rfl
@[simp] theorem completeFail_outLen : (completeFail s e).outLen = 0 := rfl
@[simp] theorem completeFail_curCmd : (completeFail s e).curCmd = s.curCmd := rfl
@[simp] theorem completeFail_mem : (completeFail s e).mem = s.mem := rfl
@[simp] theorem completeFail_params : (completeFail s e).params = s.params := rfl
@[simp] theorem completeFail_synced : (completeFail s e).synced = s.synced := rfl
@[simp] theorem completeFail_results : (completeFail s e).results = s.results := rfl
@[simp] theorem completeFail_entropyPos : (completeFail s e).entropyPos = s.entropyPos := rfl
@[simp] theorem completeFail_freePos : (completeFail s e).freePos = s.freePos := rfl
@[simp] theorem completeFail_turns : (completeFail s e).turns = s.turns := rfl
@[simp] theorem completeFail_answers : (completeFail s e).answers = s.answers := rfl
end FieldsCompleteFail

section FieldsCompleteOk
variable (s : State) (f : Effect)
@[simp] theorem completeOk_x : (completeOk s f).x = s.x := rfl
@[simp] theorem completeOk_status : (completeOk s f).status = ⟨false, true, 0⟩ := rfl
@[simp] theorem completeOk_ctrl : (completeOk s f).ctrl = s.ctrl := rfl
@[simp] theorem completeOk_gate : (completeOk s f).gate = s.gate := rfl
@[simp] theorem completeOk_outLen : (completeOk s f).outLen = BitVec.ofNat 32 f.outLen := rfl
@[simp] theorem completeOk_curCmd : (completeOk s f).curCmd = s.curCmd := rfl
@[simp] theorem completeOk_mem : (completeOk s f).mem = memWriteAll s.mem f.writes := rfl
@[simp] theorem completeOk_params : (completeOk s f).params = s.params := rfl
@[simp] theorem completeOk_synced : (completeOk s f).synced = s.synced := rfl
@[simp] theorem completeOk_results : (completeOk s f).results = s.results := rfl
@[simp] theorem completeOk_entropyPos : (completeOk s f).entropyPos = s.entropyPos + f.drawn := rfl
@[simp] theorem completeOk_freePos : (completeOk s f).freePos = s.freePos := rfl
@[simp] theorem completeOk_turns : (completeOk s f).turns = s.turns := rfl
@[simp] theorem completeOk_answers : (completeOk s f).answers = s.answers := rfl
end FieldsCompleteOk

@[simp] theorem complete_ok (s : State) (f : Effect) : complete s (.ok f) = completeOk s f := rfl
@[simp] theorem complete_error (s : State) (e : Error) : complete s (.error e) = completeFail s e := rfl

section FieldsComplete
variable (s : State) (v : Verdict)
@[simp] theorem complete_x : (complete s v).x = s.x := by cases v <;> rfl
@[simp] theorem complete_ctrl : (complete s v).ctrl = s.ctrl := by cases v <;> rfl
@[simp] theorem complete_gate : (complete s v).gate = s.gate := by cases v <;> rfl
@[simp] theorem complete_curCmd : (complete s v).curCmd = s.curCmd := by cases v <;> rfl
@[simp] theorem complete_params : (complete s v).params = s.params := by cases v <;> rfl
@[simp] theorem complete_synced : (complete s v).synced = s.synced := by cases v <;> rfl
@[simp] theorem complete_results : (complete s v).results = s.results := by cases v <;> rfl
@[simp] theorem complete_freePos : (complete s v).freePos = s.freePos := by cases v <;> rfl
@[simp] theorem complete_turns : (complete s v).turns = s.turns := by cases v <;> rfl
@[simp] theorem complete_answers : (complete s v).answers = s.answers := by cases v <;> rfl
@[simp] theorem complete_busy : (complete s v).status.busy = false := by cases v <;> rfl
@[simp] theorem complete_done : (complete s v).status.done = true := by cases v <;> rfl
end FieldsComplete

section FieldsAcceptCommand
variable (s : State) (w : Word)
@[simp] theorem acceptCommand_x : (acceptCommand s w).x = s.x := rfl
@[simp] theorem acceptCommand_status : (acceptCommand s w).status = ⟨true, false, 0⟩ := rfl
@[simp] theorem acceptCommand_ctrl : (acceptCommand s w).ctrl = s.ctrl := rfl
@[simp] theorem acceptCommand_gate : (acceptCommand s w).gate = s.gate := rfl
@[simp] theorem acceptCommand_outLen : (acceptCommand s w).outLen = 0 := rfl
@[simp] theorem acceptCommand_curCmd : (acceptCommand s w).curCmd = w := rfl
@[simp] theorem acceptCommand_mem : (acceptCommand s w).mem = s.mem := rfl
@[simp] theorem acceptCommand_params : (acceptCommand s w).params = s.params := rfl
@[simp] theorem acceptCommand_synced : (acceptCommand s w).synced = false := rfl
@[simp] theorem acceptCommand_results : (acceptCommand s w).results = openResults s ++ wordRanges s w := rfl
@[simp] theorem acceptCommand_entropyPos : (acceptCommand s w).entropyPos = s.entropyPos := rfl
@[simp] theorem acceptCommand_freePos : (acceptCommand s w).freePos = s.freePos := rfl
@[simp] theorem acceptCommand_turns : (acceptCommand s w).turns = s.turns := rfl
@[simp] theorem acceptCommand_answers : (acceptCommand s w).answers = s.answers := rfl
end FieldsAcceptCommand

section FieldsAcknowledge
variable (s : State)
@[simp] theorem acknowledge_x : (acknowledge s).x = s.x := rfl
@[simp] theorem acknowledge_status : (acknowledge s).status = ⟨s.status.busy, false, 0⟩ := rfl
@[simp] theorem acknowledge_ctrl : (acknowledge s).ctrl = s.ctrl := rfl
@[simp] theorem acknowledge_gate : (acknowledge s).gate = s.gate := rfl
@[simp] theorem acknowledge_outLen : (acknowledge s).outLen = s.outLen := rfl
@[simp] theorem acknowledge_curCmd : (acknowledge s).curCmd = s.curCmd := rfl
@[simp] theorem acknowledge_mem : (acknowledge s).mem = s.mem := rfl
@[simp] theorem acknowledge_params : (acknowledge s).params = s.params := rfl
@[simp] theorem acknowledge_synced : (acknowledge s).synced = s.synced := rfl
@[simp] theorem acknowledge_results : (acknowledge s).results = s.results := rfl
@[simp] theorem acknowledge_entropyPos : (acknowledge s).entropyPos = s.entropyPos := rfl
@[simp] theorem acknowledge_freePos : (acknowledge s).freePos = s.freePos := rfl
@[simp] theorem acknowledge_turns : (acknowledge s).turns = s.turns := rfl
@[simp] theorem acknowledge_answers : (acknowledge s).answers = s.answers := rfl
end FieldsAcknowledge

section FieldsSetOperand
variable (s : State) (i : Fin 10) (v : Word)
@[simp] theorem setOperand_x : (setOperand s i v).x = s.x.set i v := rfl
@[simp] theorem setOperand_status : (setOperand s i v).status = s.status := rfl
@[simp] theorem setOperand_ctrl : (setOperand s i v).ctrl = s.ctrl := rfl
@[simp] theorem setOperand_gate : (setOperand s i v).gate = s.gate := rfl
@[simp] theorem setOperand_outLen : (setOperand s i v).outLen = s.outLen := rfl
@[simp] theorem setOperand_curCmd : (setOperand s i v).curCmd = s.curCmd := rfl
@[simp] theorem setOperand_mem : (setOperand s i v).mem = s.mem := rfl
@[simp] theorem setOperand_params : (setOperand s i v).params = s.params := rfl
@[simp] theorem setOperand_synced : (setOperand s i v).synced = s.synced := rfl
@[simp] theorem setOperand_results : (setOperand s i v).results = s.results := rfl
@[simp] theorem setOperand_entropyPos : (setOperand s i v).entropyPos = s.entropyPos := rfl
@[simp] theorem setOperand_freePos : (setOperand s i v).freePos = s.freePos := rfl
@[simp] theorem setOperand_turns : (setOperand s i v).turns = s.turns := rfl
@[simp] theorem setOperand_answers : (setOperand s i v).answers = s.answers := rfl
end FieldsSetOperand

section FieldsAnswer
variable (s : State) (a : Answer)
@[simp] theorem answer_x : (answer s a).x = s.x := rfl
@[simp] theorem answer_status : (answer s a).status = s.status := rfl
@[simp] theorem answer_ctrl : (answer s a).ctrl = s.ctrl := rfl
@[simp] theorem answer_gate : (answer s a).gate = s.gate := rfl
@[simp] theorem answer_outLen : (answer s a).outLen = s.outLen := rfl
@[simp] theorem answer_curCmd : (answer s a).curCmd = s.curCmd := rfl
@[simp] theorem answer_mem : (answer s a).mem = s.mem := rfl
@[simp] theorem answer_params : (answer s a).params = s.params := rfl
@[simp] theorem answer_synced : (answer s a).synced = s.synced := rfl
@[simp] theorem answer_results : (answer s a).results = s.results := rfl
@[simp] theorem answer_entropyPos : (answer s a).entropyPos = s.entropyPos := rfl
@[simp] theorem answer_freePos : (answer s a).freePos = s.freePos := rfl
@[simp] theorem answer_turns : (answer s a).turns = s.turns := rfl
@[simp] theorem answer_answers : (answer s a).answers = s.answers ++ [a] := rfl
end FieldsAnswer

section FieldsStoreBytes
variable (s : State) (a : Word) (bs : List Byte)
@[simp] theorem storeBytes_x : (storeBytes s a bs).x = s.x := rfl
@[simp] theorem storeBytes_status : (storeBytes s a bs).status = s.status := rfl
@[simp] theorem storeBytes_ctrl : (storeBytes s a bs).ctrl = s.ctrl := rfl
@[simp] theorem storeBytes_gate : (storeBytes s a bs).gate = s.gate := rfl
@[simp] theorem storeBytes_outLen : (storeBytes s a bs).outLen = s.outLen := rfl
@[simp] theorem storeBytes_curCmd : (storeBytes s a bs).curCmd = s.curCmd := rfl
@[simp] theorem storeBytes_mem : (storeBytes s a bs).mem = memWrite s.mem a.toNat bs := rfl
@[simp] theorem storeBytes_params : (storeBytes s a bs).params = s.params := rfl
@[simp] theorem storeBytes_synced : (storeBytes s a bs).synced = s.synced := rfl
@[simp] theorem storeBytes_results : (storeBytes s a bs).results = s.results := rfl
@[simp] theorem storeBytes_entropyPos : (storeBytes s a bs).entropyPos = s.entropyPos := rfl
@[simp] theorem storeBytes_freePos : (storeBytes s a bs).freePos = s.freePos := rfl
@[simp] theorem storeBytes_turns : (storeBytes s a bs).turns = s.turns := rfl
@[simp] theorem storeBytes_answers : (storeBytes s a bs).answers = s.answers := rfl
end FieldsStoreBytes

section FieldsSpoilResult
variable (s : State)
@[simp] theorem spoilResult_x : (spoilResult s).x = s.x := rfl
@[simp] theorem spoilResult_status : (spoilResult s).status = ⟨s.status.busy, s.status.done, spoiledErr s⟩ := rfl
@[simp] theorem spoilResult_ctrl : (spoilResult s).ctrl = s.ctrl := rfl
@[simp] theorem spoilResult_gate : (spoilResult s).gate = s.gate := rfl
@[simp] theorem spoilResult_outLen : (spoilResult s).outLen = spoiledLen s := rfl
@[simp] theorem spoilResult_curCmd : (spoilResult s).curCmd = s.curCmd := rfl
@[simp] theorem spoilResult_mem : (spoilResult s).mem = (s.results.foldl scramble (s.mem, s.freePos + 1)).1 := rfl
@[simp] theorem spoilResult_params : (spoilResult s).params = s.params := rfl
@[simp] theorem spoilResult_synced : (spoilResult s).synced = s.synced := rfl
@[simp] theorem spoilResult_results : (spoilResult s).results = s.results := rfl
@[simp] theorem spoilResult_entropyPos : (spoilResult s).entropyPos = s.entropyPos := rfl
@[simp] theorem spoilResult_freePos : (spoilResult s).freePos = (s.results.foldl scramble (s.mem, s.freePos + 1)).2 := rfl
@[simp] theorem spoilResult_turns : (spoilResult s).turns = s.turns := rfl
@[simp] theorem spoilResult_answers : (spoilResult s).answers = s.answers := rfl
end FieldsSpoilResult

section FieldsNoteRead
variable (s : State) (r : RegSel)
@[simp] theorem noteRead_x : (noteRead s r).x = s.x := by unfold noteRead; split <;> rfl
@[simp] theorem noteRead_status : (noteRead s r).status = s.status := by unfold noteRead; split <;> rfl
@[simp] theorem noteRead_ctrl : (noteRead s r).ctrl = s.ctrl := by unfold noteRead; split <;> rfl
@[simp] theorem noteRead_gate : (noteRead s r).gate = s.gate := by unfold noteRead; split <;> rfl
@[simp] theorem noteRead_outLen : (noteRead s r).outLen = s.outLen := by unfold noteRead; split <;> rfl
@[simp] theorem noteRead_curCmd : (noteRead s r).curCmd = s.curCmd := by unfold noteRead; split <;> rfl
@[simp] theorem noteRead_mem : (noteRead s r).mem = s.mem := by unfold noteRead; split <;> rfl
@[simp] theorem noteRead_params : (noteRead s r).params = s.params := by unfold noteRead; split <;> rfl
@[simp] theorem noteRead_synced : (noteRead s r).synced = (s.synced || (decide (r = .status) && !s.status.busy)) := by
  unfold noteRead
  by_cases h : r = .status <;> cases s.status.busy <;> simp [h]
@[simp] theorem noteRead_results : (noteRead s r).results = s.results := by unfold noteRead; split <;> rfl
@[simp] theorem noteRead_entropyPos : (noteRead s r).entropyPos = s.entropyPos := by unfold noteRead; split <;> rfl
@[simp] theorem noteRead_freePos : (noteRead s r).freePos = s.freePos := by unfold noteRead; split <;> rfl
@[simp] theorem noteRead_turns : (noteRead s r).turns = s.turns := by unfold noteRead; split <;> rfl
@[simp] theorem noteRead_answers : (noteRead s r).answers = s.answers := by unfold noteRead; split <;> rfl
end FieldsNoteRead

section FieldsResetCore
variable (s : State)
@[simp] theorem resetCore_x : (resetCore s).x = Vector.replicate 10 0 := rfl
@[simp] theorem resetCore_status : (resetCore s).status = ⟨false, false, 0⟩ := rfl
@[simp] theorem resetCore_ctrl : (resetCore s).ctrl = ⟨false, false⟩ := rfl
@[simp] theorem resetCore_gate : (resetCore s).gate = ⟨false, false⟩ := rfl
@[simp] theorem resetCore_outLen : (resetCore s).outLen = 0 := rfl
@[simp] theorem resetCore_curCmd : (resetCore s).curCmd = 0 := rfl
@[simp] theorem resetCore_mem : (resetCore s).mem = (resetMem s).1 := rfl
@[simp] theorem resetCore_params : (resetCore s).params = s.params := rfl
@[simp] theorem resetCore_synced : (resetCore s).synced = true := rfl
@[simp] theorem resetCore_results : (resetCore s).results = [] := rfl
@[simp] theorem resetCore_entropyPos : (resetCore s).entropyPos = s.entropyPos := rfl
@[simp] theorem resetCore_freePos : (resetCore s).freePos = (resetMem s).2 := rfl
@[simp] theorem resetCore_turns : (resetCore s).turns = s.turns := rfl
@[simp] theorem resetCore_answers : (resetCore s).answers = s.answers := rfl
end FieldsResetCore

/-- A written operand register reads back; the others keep their value (R30: none aliased to another). -/
theorem setOperand_get (s : State) (i j : Fin 10) (v : Word) :
    (setOperand s i v).x[j] = if i = j then v else s.x[j] := by
  simp only [setOperand_x, Fin.getElem_fin, Vector.getElem_set, Fin.ext_iff]

end Sys2Proof.Machine
end

