-- ==== Sys2Proof/Laws/Commands.lean ====
section
/-! SUPPORT. What each command's rule answers, said once, and what the ok case writes. -/

namespace Sys2Proof.Machine

/-- The verdict of a command's rule. -/
def verdictOf : Instr → State → Verdict
  | .encrypt, s => encryptVerdict s
  | .decrypt, s => decryptVerdict s
  | .genenc, s => genencVerdict s
  | .decryptk, s => decryptkVerdict s
  | .embed, s => embedVerdict s
  | .extract, s => extractVerdict s

/-- Every command ends by the completion step on its verdict (R270). -/
theorem exec_eq_complete (i : Instr) (s : State) : exec i s = .next (complete s (verdictOf i s)) := by
  cases i <;> rfl

theorem exec_next_iff {i : Instr} {s t : State} : exec i s = .next t ↔ t = complete s (verdictOf i s) := by
  rw [exec_eq_complete, Host.Outcome.next.injEq, eq_comm]

@[simp] theorem readRange_length (s : State) (r : Range) : (readRange s r).length = r.len := by simp [readRange]

/-- Opening an envelope of at least 28 bytes in MEM: IV, tag and ciphertext by their addresses (R131). -/
theorem openEnvelope_memRead (K : List Byte) (m : Memory) (a n : Nat) (h : 28 ≤ n) :
    openEnvelope K (memRead m a n) =
      gcmAD K (memRead m a 12) (memRead m (a + 28) (n - 28)) (memRead m (a + 12) 16) := by
  have e : slice (memRead m a n) 12 16 = memRead m (a + 12) 16 := by
    rw [slice, memRead_drop, memRead_take _ _ _ _ (by omega)]
  rw [openEnvelope, e, memRead_take _ _ _ _ (by omega), memRead_drop]

/-- ENCRYPT succeeds exactly when both its checks pass, with this effect (R200). -/
theorem encryptVerdict_ok_iff {s : State} {f : Effect} : encryptVerdict s = .ok f ↔
    encryptRangeOK s ∧ secretOK s.params.secretLenUnit (readRange s (secRange s)) = true ∧
    f = ⟨[(opNat s .dstAddr, sealEnvelope (secretKey s) (drawBytes s 0 12) (readRange s (srcRange s)))],
      28 + opNat s .srcLen, 12⟩ := by
  unfold encryptVerdict
  split
  · next h => simp only [reduceCtorEq, false_iff]; exact fun h' => h h'.1
  · next h =>
    split
    · next h2 => simp only [reduceCtorEq, false_iff]; exact fun h' => h2 h'.2.1
    · next h2 =>
      have h := Classical.not_not.mp h
      have h2 := Classical.not_not.mp h2
      exact ⟨fun e => ⟨h, h2, (Except.ok.inj e).symm⟩, fun e => by rw [e.2.2]⟩

theorem genencVerdict_ok_iff {s : State} {f : Effect} : genencVerdict s = .ok f ↔
    genencRangeOK s ∧
    f = ⟨[(opNat s .dstAddr, sealEnvelope (drawBytes s 0 32) (drawBytes s 32 12) (readRange s (srcRange s))),
      (opNat s .secAddr, drawBytes s 0 32)], 28 + opNat s .srcLen, 44⟩ := by
  unfold genencVerdict
  split
  · next h => simp only [reduceCtorEq, false_iff]; exact fun h' => h h'.1
  · next h =>
    have h := Classical.not_not.mp h
    exact ⟨fun e => ⟨h, (Except.ok.inj e).symm⟩, fun e => by rw [e.2]⟩

theorem openVerdict_ok_iff {s : State} {K : List Byte} {f : Effect} : openVerdict s K = .ok f ↔
    ∃ p, openEnvelope K (readRange s (srcRange s)) = some p ∧
      f = ⟨[(opNat s .dstAddr, p)], opNat s .srcLen - 28, 0⟩ := by
  unfold openVerdict
  split
  · next h => simp [h]
  · next p h =>
    simp only [Except.ok.injEq, h, Option.some.injEq]
    constructor
    · rintro rfl
      exact ⟨p, rfl, rfl⟩
    · rintro ⟨q, rfl, rfl⟩
      rfl

theorem decryptVerdict_ok_iff {s : State} {f : Effect} : decryptVerdict s = .ok f ↔
    gateShut s = false ∧ decryptRangeOK s ∧
    secretOK s.params.secretLenUnit (readRange s (secRange s)) = true ∧ 28 ≤ opNat s .srcLen ∧
    ∃ p, openEnvelope (secretKey s) (readRange s (srcRange s)) = some p ∧
      f = ⟨[(opNat s .dstAddr, p)], opNat s .srcLen - 28, 0⟩ := by
  unfold decryptVerdict
  split
  · next h => simp [h]
  · next h =>
    split
    · next h1 => simp only [reduceCtorEq, false_iff]; exact fun h' => h1 h'.2.1
    · next h1 =>
      split
      · next h2 => simp only [reduceCtorEq, false_iff]; exact fun h' => h2 h'.2.2.1
      · next h2 =>
        split
        · next h3 => simp only [reduceCtorEq, false_iff]; exact fun h' => by omega
        · next h3 =>
          have h := Bool.eq_false_iff.mpr h
          have h1 := Classical.not_not.mp h1
          have h2 := Classical.not_not.mp h2
          have h3 := Nat.not_lt.mp h3
          rw [openVerdict_ok_iff]
          exact ⟨fun e => ⟨h, h1, h2, h3, e⟩, fun e => e.2.2.2.2⟩

theorem decryptkVerdict_ok_iff {s : State} {f : Effect} : decryptkVerdict s = .ok f ↔
    gateShut s = false ∧ opNat s .secLen = 32 ∧ decryptRangeOK s ∧ 28 ≤ opNat s .srcLen ∧
    ∃ p, openEnvelope (memRead s.mem (opNat s .secAddr) 32) (readRange s (srcRange s)) = some p ∧
      f = ⟨[(opNat s .dstAddr, p)], opNat s .srcLen - 28, 0⟩ := by
  unfold decryptkVerdict
  split
  · next h => simp [h]
  · next h =>
    split
    · next h1 =>
      simp only [reduceCtorEq, false_iff]
      rintro ⟨-, h2, h3, -⟩
      rcases h1 with h1 | h1
      · exact h1 h2
      · exact h1 h3
    · next h1 =>
      split
      · next h3 => simp only [reduceCtorEq, false_iff]; exact fun h' => by omega
      · next h3 =>
        have h := Bool.eq_false_iff.mpr h
        obtain ⟨h1, h2⟩ := not_or.mp h1
        have h1 := Classical.not_not.mp h1
        have h2 := Classical.not_not.mp h2
        have h3 := Nat.not_lt.mp h3
        rw [openVerdict_ok_iff]
        exact ⟨fun e => ⟨h, h1, h2, h3, e⟩, fun e => e.2.2.2.2⟩

theorem embedVerdict_ok_iff {s : State} {f : Effect} : embedVerdict s = .ok f ↔
    s.reg .imgFmt = 0 ∧ embedRangeOK s ∧ totalBits (opNat s .srcLen) ≤ imgCapacity s ∧
    f = ⟨[(opNat s .imgOutAddr, embeddedImage s)], imgBytes s, 0⟩ := by
  unfold embedVerdict
  split
  · next h => simp only [reduceCtorEq, false_iff]; exact fun h' => h h'.1
  · next h =>
    split
    · next h1 => simp only [reduceCtorEq, false_iff]; exact fun h' => h1 h'.2.1
    · next h1 =>
      split
      · next h2 => simp only [reduceCtorEq, false_iff]; exact fun h' => by omega
      · next h2 =>
        have h := Classical.not_not.mp h
        have h1 := Classical.not_not.mp h1
        have h2 := Nat.not_lt.mp h2
        exact ⟨fun e => ⟨h, h1, h2, (Except.ok.inj e).symm⟩, fun e => by rw [e.2.2.2]⟩

theorem extractVerdict_ok_iff {s : State} {f : Effect} : extractVerdict s = .ok f ↔
    gateShut s = false ∧ s.reg .imgFmt = 0 ∧ rangeValid s (imgRange s) ∧ 32 ≤ imgCapacity s ∧
    totalBits (extractLen s) ≤ imgCapacity s ∧ extractDstOK s (extractLen s) ∧
    f = ⟨[(opNat s .dstAddr, payloadOf (readRange s (imgRange s)) (extractLen s))], extractLen s, 0⟩ := by
  unfold extractVerdict
  split
  · next h => simp [h]
  · next h =>
    split
    · next h1 => simp only [reduceCtorEq, false_iff]; exact fun h' => h1 h'.2.1
    · next h1 =>
      split
      · next h2 => simp only [reduceCtorEq, false_iff]; exact fun h' => h2 h'.2.2.1
      · next h2 =>
        split
        · next h3 => simp only [reduceCtorEq, false_iff]; exact fun h' => by omega
        · next h3 =>
          split
          · next h4 => simp only [reduceCtorEq, false_iff]; exact fun h' => by omega
          · next h4 =>
            split
            · next h5 => simp only [reduceCtorEq, false_iff]; exact fun h' => h5 h'.2.2.2.2.2.1
            · next h5 =>
              have h := Bool.eq_false_iff.mpr h
              have h1 := Classical.not_not.mp h1
              have h2 := Classical.not_not.mp h2
              have h3 := Nat.not_lt.mp h3
              have h4 := Nat.not_lt.mp h4
              have h5 := Classical.not_not.mp h5
              exact ⟨fun e => ⟨h, h1, h2, h3, h4, h5, (Except.ok.inj e).symm⟩, fun e => by rw [e.2.2.2.2.2.2]⟩

theorem bytes_length {n : Nat} {bs : List Bool} (h : bs.length = 8 * n) : (bytes bs).length = n := by
  induction n generalizing bs with
  | zero => simp [List.length_eq_zero_iff.mp (by omega : bs.length = 0), bytes]
  | succ n ih =>
    match bs, h with
    | b0 :: b1 :: b2 :: b3 :: b4 :: b5 :: b6 :: b7 :: rest, h =>
      simp only [bytes, List.length_cons]
      rw [ih]
      simp only [List.length_cons] at h
      omega
    | [], h => simp at h
    | [_], h => simp at h; omega
    | [_, _], h => simp at h; omega
    | [_, _, _], h => simp at h; omega
    | [_, _, _, _], h => simp at h; omega
    | [_, _, _, _, _], h => simp at h; omega
    | [_, _, _, _, _, _], h => simp at h; omega
    | [_, _, _, _, _, _, _], h => simp at h; omega

@[simp] theorem payloadOf_length (px : List Byte) (n : Nat) : (payloadOf px n).length = n :=
  bytes_length (by simp)

@[simp] theorem embeddedImage_length (s : State) : (embeddedImage s).length = imgBytes s := by
  simp [embeddedImage, imgRange]

/-- What a command that succeeds writes: each write fills one of its output ranges (R90), which lies in MEM, and OUT_LEN
is the length of the primary one (R50). -/
theorem verdict_writes {i : Instr} {s : State} {f : Effect} (h : verdictOf i s = .ok f) :
    (∀ w ∈ f.writes, ∃ r ∈ outputRanges i s, w.1 = r.base ∧ w.2.length = r.len ∧ rangeValid s r) ∧
    f.outLen ≤ s.params.memBytes ∧ f.outLen < 2 ^ 32 := by
  have hsrc : opNat s .srcLen < 2 ^ 32 := (s.reg .srcLen).isLt
  cases i with
  | encrypt =>
    obtain ⟨hr, -, rfl⟩ := encryptVerdict_ok_iff.1 h
    have hv := hr.2.2.1
    have ho := hr.2.2.2.1
    refine ⟨?_, by simp only [rangeValid, sealedRange] at hv ⊢; omega, ho⟩
    simp only [List.mem_singleton, forall_eq]
    exact ⟨sealedRange s, by simp [outputRanges], rfl, by
      simp [sealedRange, srcRange, sealEnvelope_length], hv⟩
  | decrypt =>
    obtain ⟨-, hr, -, hl, p, hp, rfl⟩ := decryptVerdict_ok_iff.1 h
    have hv := hr.2.2.1
    refine ⟨?_, by simp only [rangeValid, openedRange] at hv ⊢; omega, by simp only; omega⟩
    simp only [List.mem_singleton, forall_eq]
    exact ⟨openedRange s, by simp [outputRanges], rfl, by
      simp [openEnvelope_length hp, openedRange, srcRange], hv⟩
  | genenc =>
    obtain ⟨hr, rfl⟩ := genencVerdict_ok_iff.1 h
    have hv := hr.2.1
    have hk := hr.2.2.1
    have ho := hr.2.2.2.1
    refine ⟨?_, by simp only [rangeValid, sealedRange] at hv ⊢; omega, ho⟩
    intro w hw
    rcases List.mem_cons.mp hw with rfl | hw
    · exact ⟨sealedRange s, by simp [outputRanges], rfl, by
        simp [sealedRange, srcRange, sealEnvelope_length], hv⟩
    · obtain rfl := List.mem_singleton.mp hw
      exact ⟨keyOutRange s, by simp [outputRanges], rfl, by simp [keyOutRange], hk⟩
  | decryptk =>
    obtain ⟨-, -, hr, hl, p, hp, rfl⟩ := decryptkVerdict_ok_iff.1 h
    have hv := hr.2.2.1
    refine ⟨?_, by simp only [rangeValid, openedRange] at hv ⊢; omega, by simp only; omega⟩
    simp only [List.mem_singleton, forall_eq]
    exact ⟨openedRange s, by simp [outputRanges], rfl, by
      simp [openEnvelope_length hp, openedRange, srcRange], hv⟩
  | embed =>
    obtain ⟨-, hr, -, rfl⟩ := embedVerdict_ok_iff.1 h
    have hv := hr.2.2.1
    have ho := hr.2.2.2.1
    refine ⟨?_, by simp only [rangeValid, imgOutRange] at hv ⊢; omega, ho⟩
    simp only [List.mem_singleton, forall_eq]
    exact ⟨imgOutRange s, by simp [outputRanges], rfl, by simp [imgOutRange], hv⟩
  | extract =>
    obtain ⟨-, -, hi, hc, -, hd, rfl⟩ := extractVerdict_ok_iff.1 h
    have hv := hd.1
    have hlt : extractLen s < 2 ^ 32 := by
      have h4 : ∀ (l : List Byte), l.length = 4 → unbe32 l < 2 ^ 32 := by
        intro l hl
        match l, hl with
        | [a, b, c, d], _ =>
          have := a.isLt; have := b.isLt; have := c.isLt; have := d.isLt
          simp only [unbe32, List.foldl]
          omega
      exact h4 _ (bytes_length (by simp))
    refine ⟨?_, by simp only [rangeValid, extractedRange] at hv ⊢; omega, hlt⟩
    simp only [List.mem_singleton, forall_eq]
    refine ⟨extractedRange s (extractLen s), ?_, rfl, by simp [extractedRange], hv⟩
    simp [outputRanges, hi, hc, extractLen]

end Sys2Proof.Machine
end

