-- ==== Sys2Proof/Laws/Ghash.lean ====
section
/-! SUPPORT. The product in GF(2^128): the block `80 00 .. 00` is its right identity (40_aead_primitives.md R171). -/

namespace Sys2Proof.Machine

theorem getMsbD_one_shift (n j : Nat) (h : n < 128) : (1#128 <<< (127 - n)).getMsbD j = decide (j = n) := by
  have e := BitVec.getLsbD_twoPow (w := 128) (127 - n) (127 - j)
  rw [BitVec.twoPow] at e
  rw [BitVec.getMsbD, show 128 - 1 - j = 127 - j by omega, e]
  by_cases hj : j < 128
  · simp only [hj, decide_true, Bool.true_and, show 127 - n < 128 by omega, decide_eq_decide]
    omega
  · simp only [hj, decide_false, Bool.false_and]
    symm
    simp only [decide_eq_false_iff_not]
    omega

/-- After `n` steps of `X · 1`: `V` holds the one bit `n`, `Z` the first `n` bits of `X`. -/
theorem gf128Step_one (X : Block) : ∀ n, n < 128 →
    ((List.range n).foldl (gf128Step X) (0, 1#128 <<< 127)).2 = 1#128 <<< (127 - n) ∧
    ∀ j, ((List.range n).foldl (gf128Step X) (0, 1#128 <<< 127)).1.getMsbD j = (decide (j < n) && X.getMsbD j) := by
  intro n
  induction n with
  | zero => exact fun _ => ⟨rfl, fun j => by simp⟩
  | succ n ih =>
    intro h
    obtain ⟨hv, hz⟩ := ih (by omega)
    rw [List.range_succ, List.foldl_append]
    generalize (List.range n).foldl (gf128Step X) (0, 1#128 <<< 127) = r at hv hz
    obtain ⟨z, v⟩ := r
    simp only at hv hz
    subst hv
    simp only [List.foldl_cons, List.foldl_nil, gf128Step]
    refine ⟨?_, fun j => ?_⟩
    · have low : (1#128 <<< (127 - n)).getLsbD 0 = false := by
        have := getMsbD_one_shift n 127 (by omega)
        rw [BitVec.getMsbD] at this
        simp only [Nat.reduceLT, decide_true, Bool.true_and, Nat.reduceSub] at this
        rw [this]
        simp only [decide_eq_false_iff_not]
        omega
      simp only [low, Bool.false_eq_true, if_false]
      apply BitVec.eq_of_getMsbD_eq
      intro i hi
      rw [getMsbD_one_shift _ _ h, BitVec.getMsbD_ushiftRight]
      rw [getMsbD_one_shift _ _ (by omega)]
      by_cases h0 : i = 0
      · simp [h0]
      · have e : (i - 1 = n) = (i = n + 1) := by simp only [eq_iff_iff]; omega
        have : ¬ i < 1 := by omega
        simp [hi, this, e]
    · by_cases e : j = n
      · subst e
        cases hx : X.getMsbD j
        · simp [hx, hz]
        · simp [hx, hz, getMsbD_one_shift j j (by omega)]
      · have lt : (j < n + 1) = (j < n) := by simp only [eq_iff_iff]; omega
        split
        · simp [BitVec.getMsbD_xor, hz, getMsbD_one_shift n j (by omega), e, lt]
        · simp [hz, lt]

/-- `X · 80 00 .. 00 = X` (R171). -/
theorem gf128Mul_one (X : Block) : gf128Mul X (1#128 <<< 127) = X := by
  obtain ⟨hv, hz⟩ := gf128Step_one X 127 (by omega)
  unfold gf128Mul
  rw [List.range_succ, List.foldl_append]
  generalize (List.range 127).foldl (gf128Step X) (0, 1#128 <<< 127) = r at hv hz
  obtain ⟨z, v⟩ := r
  simp only at hv hz
  subst hv
  simp only [List.foldl_cons, List.foldl_nil, gf128Step]
  apply BitVec.eq_of_getMsbD_eq
  intro j hj
  by_cases e : j = 127
  · subst e
    cases hx : X.getMsbD 127
    · simp [hx, hz]
    · simp only [if_true, BitVec.getMsbD_xor, hz, getMsbD_one_shift 127 127 (by omega)]
      simp [hx]
  · have lt : j < 127 := by omega
    split
    · rw [BitVec.getMsbD_xor, hz, getMsbD_one_shift 127 j (by omega)]
      simp [lt, e]
    · simp [hz, lt]

end Sys2Proof.Machine
end

