-- ==== Sys2Proof/Laws/PerInstr.lean ====
section
/-! SUPPORT. Statements made per command, about the command as syntax: its word and what that word decodes to. -/

namespace Sys2Proof.Laws.Encoding

/-- The command is well-formed, its word is a well-formed command word with bits 31:8 zero, and the word's byte lanes
decode to it (R82, R120, R121, R124). -/
def Statement (i : Instr) : Prop :=
  i.wellFormed = true ∧ commandWordWellFormed (encode i) = true ∧ zeroField (encode i) = 0
    ∧ opcField (encode i) = opcode i ∧ decodeBytes (wordLanes (encode i)) = .ok i

theorem encrypt : Statement .encrypt := ⟨rfl, by decide, by decide, by decide, rfl⟩
theorem decrypt : Statement .decrypt := ⟨rfl, by decide, by decide, by decide, rfl⟩
theorem genenc : Statement .genenc := ⟨rfl, by decide, by decide, by decide, rfl⟩
theorem decryptk : Statement .decryptk := ⟨rfl, by decide, by decide, by decide, rfl⟩
theorem embed : Statement .embed := ⟨rfl, by decide, by decide, by decide, rfl⟩
theorem extract : Statement .extract := ⟨rfl, by decide, by decide, by decide, rfl⟩

end Sys2Proof.Laws.Encoding
end

