-- ==== Sys2Proof/Laws/Step.lean ====
section
/-! SUPPORT. Everything one step can do, said once. -/

namespace Sys2Proof.Machine

/-- The verdict of the engine's step on the accepted word: the command's, or IllegalCommand (R121, R266). -/
def engineVerdict (s : State) : Verdict :=
  match decode s.curCmd with
  | .ok i => verdictOf i s
  | .error _ => .error .illegalCommand

/-- The engine's turn never stops: with BUSY = 1 it completes, with BUSY = 0 nothing changes. -/
theorem engineTurn_eq (s : State) :
    engineTurn s = .next (if s.status.busy then complete s (engineVerdict s) else s) := by
  unfold engineTurn engineVerdict
  by_cases hb : s.status.busy = true
  · simp only [hb, if_true]
    cases decode s.curCmd with
    | ok i => exact exec_eq_complete i s
    | error e => rfl
  · simp [hb]

/-- Who moves in a step, and on which state. -/
theorem step_cases (s : State) :
    (engineNext s ∧ step s = engineTurn (dropTurn s)) ∨
    (∃ op ts, s.turns = .host op :: ts ∧ step s = hostTurn op (dropTurn s)) := by
  unfold step nextTurn engineNext dropTurn
  cases h : s.turns with
  | nil =>
    cases s
    cases h
    exact Or.inl ⟨trivial, rfl⟩
  | cons u ts =>
    cases u with
    | engine => exact Or.inl ⟨trivial, rfl⟩
    | host op => exact Or.inr ⟨op, ts, rfl, rfl⟩

@[simp] theorem dropTurn_x (s : State) : (dropTurn s).x = s.x := rfl
@[simp] theorem dropTurn_status (s : State) : (dropTurn s).status = s.status := rfl
@[simp] theorem dropTurn_ctrl (s : State) : (dropTurn s).ctrl = s.ctrl := rfl
@[simp] theorem dropTurn_gate (s : State) : (dropTurn s).gate = s.gate := rfl
@[simp] theorem dropTurn_outLen (s : State) : (dropTurn s).outLen = s.outLen := rfl
@[simp] theorem dropTurn_curCmd (s : State) : (dropTurn s).curCmd = s.curCmd := rfl
@[simp] theorem dropTurn_mem (s : State) : (dropTurn s).mem = s.mem := rfl
@[simp] theorem dropTurn_params (s : State) : (dropTurn s).params = s.params := rfl
@[simp] theorem dropTurn_synced (s : State) : (dropTurn s).synced = s.synced := rfl
@[simp] theorem dropTurn_results (s : State) : (dropTurn s).results = s.results := rfl
@[simp] theorem dropTurn_entropyPos (s : State) : (dropTurn s).entropyPos = s.entropyPos := rfl
@[simp] theorem dropTurn_freePos (s : State) : (dropTurn s).freePos = s.freePos := rfl
@[simp] theorem dropTurn_turns (s : State) : (dropTurn s).turns = s.turns.tail := rfl
@[simp] theorem dropTurn_answers (s : State) : (dropTurn s).answers = s.answers := rfl

/-- Everything a host operation can do when it answers a next state. -/
theorem hostTurn_cases {op : HostOp} {s t : State} (h : hostTurn op s = .next t) :
    (∃ offset v r, op = .wr offset v ∧ regAt offset = some r ∧ t = writeReg s r v) ∨
    (∃ offset r, op = .rd offset ∧ regAt offset = some r ∧ t = hostRead s r) ∨
    (∃ a bs, op = .ldm a bs ∧ s.status.busy = false ∧ windowOK s a bs.length ∧ t = hostStore s a bs) ∨
    (∃ a n, op = .stm a n ∧ s.status.busy = false ∧ windowOK s a n ∧ t = hostLoad s a n) ∨
    (op = .sampleIrq ∧ t = answer s (.line (irq s))) ∨
    (op = .rst ∧ t = resetCore s) := by
  cases op with
  | wr offset v =>
    simp only [hostTurn] at h
    split at h
    · next r hr => exact Or.inl ⟨offset, v, r, rfl, hr, by simpa using h.symm⟩
    · cases h
  | rd offset =>
    simp only [hostTurn] at h
    split at h
    · next r hr => exact Or.inr (Or.inl ⟨offset, r, rfl, hr, by simpa using h.symm⟩)
    · cases h
  | ldm a bs =>
    simp only [hostTurn] at h
    split at h
    · cases h
    · next hb =>
      split at h
      · next hw =>
        exact Or.inr (Or.inr (Or.inl ⟨a, bs, rfl, by simpa using hb, hw, by simpa using h.symm⟩))
      · cases h
  | stm a n =>
    simp only [hostTurn] at h
    split at h
    · cases h
    · next hb =>
      split at h
      · next hw =>
        exact Or.inr (Or.inr (Or.inr (Or.inl ⟨a, n, rfl, by simpa using hb, hw, by simpa using h.symm⟩)))
      · cases h
  | sampleIrq => exact Or.inr (Or.inr (Or.inr (Or.inr (Or.inl ⟨rfl, by simpa [hostTurn] using h.symm⟩))))
  | rst => exact Or.inr (Or.inr (Or.inr (Or.inr (Or.inr ⟨rfl, by simpa [hostTurn] using h.symm⟩))))

/-- The offsets that reach a register are the multiples of 4 (R84). -/
theorem regAt_isSome_iff (offset : Byte) : (∃ r, regAt offset = some r) ↔ offset.toNat % 4 = 0 := by
  unfold regAt
  by_cases h : offset.toNat % 4 = 0
  · simp only [h, ne_eq, not_true_eq_false, if_false, iff_true]
    split <;> exact ⟨_, rfl⟩
  · simp [h]

/-- Scrambling ranges keeps the canonical form. -/
theorem scramble_wf {rs : List Range} {mp : Memory × Nat} (w : memWf mp.1 = true) :
    memWf (rs.foldl scramble mp).1 = true := by
  induction rs generalizing mp with
  | nil => exact w
  | cons r rs ih => exact ih (memWrite_wf w)

@[simp] theorem freeBytes_length (p n : Nat) : (freeBytes p n).length = n := by simp [freeBytes]

theorem scramble_below {bound : Nat} {rs : List Range} {mp : Memory × Nat} (w : memBelow bound mp.1 = true)
    (h : ∀ r ∈ rs, r.len = 0 ∨ r.base + r.len ≤ bound) : memBelow bound (rs.foldl scramble mp).1 = true := by
  induction rs generalizing mp with
  | nil => exact w
  | cons r rs ih =>
    refine ih ?_ (fun t ht => h t (by simp [ht]))
    rcases h r (by simp) with h0 | h0
    · have : freeBytes mp.2 r.len = [] := List.length_eq_zero_iff.mp (by simp [h0])
      simp [scramble, this, memWrite, w]
    · exact memWrite_below w (by simpa using h0)

/-- Outside the scrambled ranges nothing changes. -/
theorem readByte_scramble_outside {a : Nat} {rs : List Range} {mp : Memory × Nat} (w : memWf mp.1 = true)
    (h : ∀ r ∈ rs, a < r.base ∨ r.base + r.len ≤ a) : readByte (rs.foldl scramble mp).1 a = readByte mp.1 a := by
  induction rs generalizing mp with
  | nil => rfl
  | cons r rs ih =>
    rw [List.foldl_cons, ih (memWrite_wf w) (fun t ht => h t (by simp [ht]))]
    exact readByte_memWrite_outside w (by simpa using h r (by simp))

/-- A clipped range lies in MEM. -/
theorem clipRange_inside (bound : Nat) (r : Range) :
    (clipRange bound r).len = 0 ∨ (clipRange bound r).base + (clipRange bound r).len ≤ bound := by
  simp only [clipRange]
  omega

/-- The ranges of a command word lie in MEM. -/
theorem wordRanges_inside {s : State} {w : Word} {r : Range} (h : r ∈ wordRanges s w) :
    r.len = 0 ∨ r.base + r.len ≤ s.params.memBytes := by
  unfold wordRanges at h
  split at h
  · obtain ⟨q, -, rfl⟩ := List.mem_map.mp h
    exact clipRange_inside _ q
  · cases h

@[simp] theorem openResults_synced {s : State} (h : s.synced = true) : openResults s = [] := if_pos h

@[simp] theorem openResults_unsynced {s : State} (h : s.synced = false) : openResults s = s.results := by simp [openResults, h]

theorem mem_openResults {s : State} {r : Range} : r ∈ openResults s ↔ s.synced = false ∧ r ∈ s.results := by
  cases h : s.synced <;> simp [openResults, h]

/-- The ranges a reset scrambles lie in MEM. -/
theorem abandonedRanges_inside {s : State} {r : Range} (h : r ∈ abandonedRanges s) :
    r.len = 0 ∨ r.base + r.len ≤ s.params.memBytes := by
  unfold abandonedRanges at h
  split at h
  · exact wordRanges_inside h
  · cases h

/-! What a host access to MEM can do, in and out of the window of R93(c). -/

theorem hostLoad_synced {s : State} (h : s.synced = true) (a : Word) (n : Nat) :
    hostLoad s a n = answer s (.bytes (memRead s.mem a.toNat n)) := if_pos h

theorem hostLoad_unsynced {s : State} (h : s.synced = false) (a : Word) (n : Nat) :
    hostLoad s a n = { answer s (.bytes (freeBytes s.freePos n)) with freePos := s.freePos + n } := by
  simp [hostLoad, h]

theorem hostStore_cases (s : State) (a : Word) (bs : List Byte) :
    (hostStore s a bs = storeBytes s a bs ∧ (s.synced = true ∨ bs = [])) ∨
    (hostStore s a bs = spoilResult (storeBytes s a bs) ∧ s.synced = false ∧ bs ≠ []) := by
  unfold hostStore
  split
  · next h => exact Or.inl ⟨rfl, h⟩
  · next h => exact Or.inr ⟨rfl, by simpa using (not_or.mp h).1, (not_or.mp h).2⟩

theorem hostStore_synced {s : State} (h : s.synced = true) (a : Word) (bs : List Byte) :
    hostStore s a bs = storeBytes s a bs := if_pos (Or.inl h)

/-- A spoiled ERR is a code of the table, and OUT_LEN is 0 beside an error and at most MEM_BYTES otherwise. -/
theorem spoiledErr_known {s : State} (h : s.status.err ∈ errorCodes) : spoiledErr s ∈ errorCodes := by
  unfold spoiledErr
  split
  · exact (by decide : ∀ i : Fin 10, errorCodes.getD i.val 0 ∈ errorCodes) _
  · exact h

theorem spoiledLen_le (s : State) : (spoiledLen s).toNat ≤ s.params.memBytes := by
  unfold spoiledLen
  split
  · rw [BitVec.toNat_ofNat]
    exact (Nat.mod_le _ _).trans (Nat.lt_succ_iff.mp (Nat.mod_lt _ (Nat.succ_pos _)))
  · exact Nat.zero_le _

theorem spoiledLen_of_err {s : State} (h : spoiledErr s ≠ 0) : spoiledLen s = 0 := if_neg h

end Sys2Proof.Machine
end

