-- ==== Sys2Proof/Tests/Slice0.lean ====
section
/-! SUPPORT. Tests of the model against the vectors of 95_test_vectors.md (V<n>, derived there from the rules) and witnesses
for the hypotheses of the statements in Certificates/Slice0/Obligations.lean. -/

namespace Sys2Proof.Tests
open Sys2Proof.Machine

-- One kernel evaluation at a time: in parallel they would each hold a thread.
set_option Elab.async false

/-! ### Helpers -/

/-- The `len` bytes that a hex number spells, most significant first. -/
def hexBytes (len n : Nat) : List Byte := (List.range len).map fun k => BitVec.ofNat 8 (n >>> (8 * (len - 1 - k)))

/-- The reset state with a MEM of `n` bytes. -/
def small (n : Nat) : State := { State.reset with params := ⟨n, .codepoints⟩ }

/-- Bytes placed in MEM. -/
def load (s : State) (parts : List (Nat × List Byte)) : State := { s with mem := memWriteAll s.mem parts }

/-- Operand registers set. -/
def withOps (s : State) (ops : List (Reg × Word)) : State := ops.foldl (fun t p => setOperand t p.1.index p.2) s

/-- BUSY with the word `w` accepted. -/
def busyWith (w : Word) : State := acceptCommand (small 1024) w

/-- STATUS after a step, if it gave a next state. -/
def statusAfter : Host.Outcome State Fault Refusal → Option Word
  | .next t => some (statusWord t.status)
  | .fault _ => none
  | .refused _ => none

/-- The next state, if there is one. -/
def nextState : Host.Outcome State Fault Refusal → Option State
  | .next t => some t
  | .fault _ => none
  | .refused _ => none

/-- OUT_LEN and `n` bytes of MEM from `a` after a step. -/
def resultAfter (a n : Nat) : Host.Outcome State Fault Refusal → Option (Nat × List Byte)
  | .next t => some (t.outLen.toNat, memRead t.mem a n)
  | .fault _ => none
  | .refused _ => none

/-- "a" 32 times, and a 31 characters long one. -/
def secret32 : List Byte := List.replicate 32 0x61
def secret31 : List Byte := List.replicate 31 0x61

/-- "hello world". -/
def hello : List Byte := [0x68, 0x65, 0x6c, 0x6c, 0x6f, 0x20, 0x77, 0x6f, 0x72, 0x6c, 0x64]

/-- `00 01 .. 1f` and `00 01 .. 0b`. -/
def key0 : List Byte := (List.range 32).map (BitVec.ofNat 8)
def iv0 : List Byte := (List.range 12).map (BitVec.ofNat 8)

/-- The 39-byte envelope of V11, first row. -/
def helloEnvelope : List Byte :=
  hexBytes 39 0x000102030405060708090a0b05301c56437e2377b98ef3961c2719282f67ba77aac5b574ff2df3

/-! ### WellFormed: each check refuses an ill-formed term -/

/-- A command word with a reserved bit, with OPC 0 and with OPC 7 is refused; the six words pass (R120, R124). -/
theorem test_commandWordWellFormed :
    commandWordWellFormed 0x00000101 = false ∧ commandWordWellFormed 0x80000002 = false ∧
    commandWordWellFormed 0x00000000 = false ∧ commandWordWellFormed 0x00000007 = false ∧
    commandWordWellFormed 0x000000ff = false ∧ commandWordWellFormed 0x00000001 = true ∧
    commandWordWellFormed 0x00000006 = true := by decide

/-- MEM_BYTES = 0 and MEM_BYTES = 2^32 are refused, 1 and 2^32 - 1 pass (R7). -/
theorem test_paramsWellFormed :
    Params.wellFormed ⟨0, .codepoints⟩ = false ∧ Params.wellFormed ⟨2 ^ 32, .bytes⟩ = false ∧
    Params.wellFormed ⟨1, .utf16units⟩ = true ∧ Params.wellFormed ⟨2 ^ 32 - 1, .codepoints⟩ = true := by decide

/-- A memory out of order, with a repeated address or with a listed zero is refused; so is an address beyond the end. -/
theorem test_memWf :
    memWf [(5, 1), (3, 1)] = false ∧ memWf [(3, 1), (3, 2)] = false ∧ memWf [(3, 0)] = false ∧
    memWf [(3, 1), (5, 1)] = true ∧ memBelow 5 [(5, 1)] = false ∧ memBelow 6 [(5, 1)] = true := by decide

/-! ### Decoding (R120, R124), each word written out bit by bit -/

theorem test_decode_cipher :
    decode 0b00000000000000000000000000000001 = .ok .encrypt ∧
    decode 0b00000000000000000000000000000010 = .ok .decrypt ∧
    decode 0b00000000000000000000000000000011 = .ok .genenc ∧
    decode 0b00000000000000000000000000000100 = .ok .decryptk := by decide

theorem test_decode_stego :
    decode 0b00000000000000000000000000000101 = .ok .embed ∧
    decode 0b00000000000000000000000000000110 = .ok .extract ∧
    decodeBytes [0x06, 0x00, 0x00, 0x00] = .ok .extract ∧ decodeTableWord 32 5 = some .embed := by decide

/-- V28: the illegal words, each by the name of what is wrong. -/
theorem test_decode_illegal :
    decode 0x00000007 = .error (.illegalOpcode 7) ∧ decode 0x00000000 = .error (.illegalOpcode 0) ∧
    decode 0x00000101 = .error (.reservedBits 1) ∧ decode 0x80000002 = .error (.reservedBits 0x800000) ∧
    decodeBytes [0x01] = .error (.notOneWord 1) := by decide

/-! ### AEAD primitives -/

/-- V1. -/
theorem test_gf8 : xtime 0x57 = 0xAE ∧ gf8Mul 0x57 0x13 = 0xFE ∧ gf8Mul 0x57 0x83 = 0xC1 := by decide +kernel

/-- `b^254`, the inverse of `b` in GF(2^8), and 0 for 0. -/
def inverse8 (b : Byte) : Byte :=
  let b2 := gf8Mul b b
  let b4 := gf8Mul b2 b2
  let b8 := gf8Mul b4 b4
  let b16 := gf8Mul b8 b8
  let b32 := gf8Mul b16 b16
  let b64 := gf8Mul b32 b32
  gf8Mul (gf8Mul (gf8Mul b2 b4) (gf8Mul b8 b16)) (gf8Mul (gf8Mul b32 b64) (gf8Mul b64 b64))

/-- The S-box table agrees with the formula of R163 on all 256 bytes. -/
theorem test_sbox_formula : ∀ b : Byte,
    (b = 0 ∨ gf8Mul b (inverse8 b) = 1) ∧
    sbox b = inverse8 b ^^^ (inverse8 b).rotateLeft 1 ^^^ (inverse8 b).rotateLeft 2 ^^^ (inverse8 b).rotateLeft 3 ^^^
      (inverse8 b).rotateLeft 4 ^^^ 0x63 := by decide +kernel

/-- V2. -/
theorem test_keySchedule :
    (keySchedule key0)[8]? = some ⟨0xa5, 0x73, 0xc2, 0x9f⟩ ∧ (keySchedule key0)[9]? = some ⟨0xa1, 0x76, 0xc4, 0x98⟩ ∧
    (keySchedule key0)[12]? = some ⟨0x16, 0x51, 0xa8, 0xcd⟩ ∧ (keySchedule key0)[59]? = some ⟨0x6d, 0x68, 0xde, 0x36⟩ := by
  decide +kernel

/-- V3, second vector: the GHASH key of the zero key. -/
theorem test_aes_zero : aes256 (zeroBytes 32) 0 = 0xdc95c078a2408989ad48a21492842087 := by decide +kernel

/-- V4. -/
theorem test_gf128 :
    gf128Mul 0x0388dace60b6a392f328c2b971b2fe78 0x66e94bd4ef8a2c3b884cfa59ca342b2e =
      0x5e2ec746917062882c85b0685353deb7 := by decide +kernel

/-- V5 and V6. -/
theorem test_gcm_zero :
    gcmAE (zeroBytes 32) (zeroBytes 12) [] = ([], hexBytes 16 0x530f8afbc74536b9a963b4f1c4cb738b) ∧
    gcmAE (zeroBytes 32) (zeroBytes 12) (zeroBytes 16) =
      (hexBytes 16 0xcea7403d4d606b6e074ec5d3baf39d18, hexBytes 16 0xd0d1c8a799996bf0265b98b5d48ab919) := by
  decide +kernel

/-- V11, the rows of 11 and 17 bytes. -/
theorem test_envelope :
    sealEnvelope key0 iv0 hello = helloEnvelope ∧
    sealEnvelope key0 iv0 (hexBytes 17 0x303132333435363738393a3b3c3d3e3f40) =
      hexBytes 45 0x000102030405060708090a0bb04dad9d09d9dea0b56734c5ccb111867733e428f1d0f42cb578adb08dd44652c3 := by
  decide +kernel

/-- V13: byte 28 from 2f to 2e, and byte 27 from 28 to a8, are rejected. -/
theorem test_tamper :
    openEnvelope key0 (helloEnvelope.set 28 0x2e) = none ∧ openEnvelope key0 (helloEnvelope.set 27 0xa8) = none := by
  decide +kernel

/-- V15 and V16. -/
theorem test_charCount :
    charCount .codepoints ((List.replicate 16 [0xc3, 0xa9]).flatten) = 16 ∧
    charCount .codepoints (secret31 ++ [0xe2, 0x82, 0xac]) = 32 ∧
    charCount .codepoints (List.replicate 30 0x61 ++ [0xf0, 0x9f, 0x98, 0x80]) = 31 ∧
    charCount .bytes (List.replicate 30 0x61 ++ [0xf0, 0x9f, 0x98, 0x80]) = 34 ∧
    charCount .utf16units (List.replicate 30 0x61 ++ [0xf0, 0x9f, 0x98, 0x80]) = 32 ∧
    charCount .codepoints (List.replicate 40 0x80) = 0 ∧ secretOK .codepoints secret32 = true ∧
    secretOK .codepoints secret31 = false := by decide +kernel

/-! ### Bit packing (V18, V19) -/

theorem test_bits :
    bits [0xA5] = [true, false, true, false, false, true, false, true] ∧
    frame [0xde, 0xad] = [0x00, 0x00, 0x00, 0x02, 0xde, 0xad] ∧
    bytes (bits (frame [0xde, 0xad])) = [0x00, 0x00, 0x00, 0x02, 0xde, 0xad] := by decide +kernel

theorem test_off :
    [0, 1, 2, 3, 29, 30, 31, 32, 33, 47, 343].map off = [0, 1, 2, 4, 38, 40, 41, 42, 44, 62, 457] ∧
    bitIndexToSubchannel 343 = (114, 1) ∧ subchannelToBitIndex 10 3 = none := by decide

/-! ### Commands -/

/-- ENCRYPT's state: secret at 0, plaintext at 64, envelope to 128. -/
def encState (sec : List Byte) (dst : Word) : State :=
  withOps (load (small 1024) [(0, sec), (64, hello)])
    [(.srcAddr, 64), (.srcLen, 11), (.dstAddr, dst), (.secAddr, 0), (.secLen, BitVec.ofNat 32 sec.length)]

/-- V29, and `0x3F5 + 39 > 0x400` (R90): a short secret and an output range beyond MEM; and success with OUT_LEN 39. -/
theorem test_encrypt :
    statusAfter (exec .encrypt (encState secret31 128)) = some 0x00000102 ∧
    statusAfter (exec .encrypt (encState secret32 0x3F5)) = some 0x00001202 ∧
    statusAfter (exec .encrypt (encState secret32 128)) = some 0x00000002 ∧
    (resultAfter 0 0 (exec .encrypt (encState secret32 128))) = some (39, []) := by decide +kernel

/-- V28's state with the envelope of V11: DECRYPT from 128 to 256. -/
def decState (gate : Gate) (sec : List Byte) (srcLen dst : Word) : State :=
  { withOps (load (small 1024) [(0, sec), (128, helloEnvelope)])
      [(.srcAddr, 128), (.srcLen, srcLen), (.dstAddr, dst), (.secAddr, 0), (.secLen, BitVec.ofNat 32 sec.length)] with
    gate := gate }

/-- V28, the rows that need no key: gate, secret, length, overlap and end of MEM, in their order. -/
theorem test_decrypt_priority :
    statusAfter (exec .decrypt (decState ⟨true, false⟩ secret31 39 256)) = some 0x00001302 ∧
    statusAfter (exec .decrypt (decState ⟨true, true⟩ secret31 27 256)) = some 0x00000102 ∧
    statusAfter (exec .decrypt (decState ⟨true, true⟩ secret32 27 256)) = some 0x00001002 ∧
    statusAfter (exec .decrypt (decState ⟨false, false⟩ secret32 39 0x84)) = some 0x00001202 ∧
    statusAfter (exec .decrypt (decState ⟨false, true⟩ secret32 39 0x3FB)) = some 0x00001202 := by decide +kernel

/-- V17: `DST_ADDR = 0x80`, `SEC_ADDR = 0x90` overlap; with `SEC_ADDR = 0x200` it succeeds, SEC_LEN not read. -/
def genState (sec : Word) : State :=
  withOps (load (small 1024) [(64, hello)])
    [(.srcAddr, 64), (.srcLen, 11), (.dstAddr, 0x80), (.secAddr, sec), (.secLen, 0x12345678)]

theorem test_genenc :
    statusAfter (exec .genenc (genState 0x90)) = some 0x00001202 ∧
    statusAfter (exec .genenc (genState 0x30)) = some 0x00001202 ∧
    statusAfter (exec .genenc (genState 0x200)) = some 0x00000002 ∧
    resultAfter 64 11 (exec .genenc (genState 0x200)) = some (39, hello) := by decide +kernel

/-- DECRYPTK of the envelope of V11 at 128 to 256. -/
def deckState (key : List Byte) (keyLen srcLen : Word) : State :=
  withOps (load (small 1024) [(0, key), (128, helloEnvelope)])
    [(.srcAddr, 128), (.srcLen, srcLen), (.dstAddr, 256), (.secAddr, 0), (.secLen, keyLen)]

/-- V12 and V17: success, and the wrong key. -/
theorem test_decryptk :
    resultAfter 256 11 (exec .decryptk (deckState key0 32 39)) = some (11, hello) ∧
    statusAfter (exec .decryptk (deckState (key0.map (· + 1)) 32 39)) = some 0x00000202 := by decide +kernel

/-- V17: key lengths 31 and 33, and an envelope of 27 bytes. -/
theorem test_decryptk_errors :
    statusAfter (exec .decryptk (deckState key0 31 39)) = some 0x00001202 ∧
    statusAfter (exec .decryptk (deckState key0 33 39)) = some 0x00001202 ∧
    statusAfter (exec .decryptk (deckState key0 32 27)) = some 0x00001002 := by decide +kernel

/-- V20's image: `0x40 + o` and alpha `ff`. -/
def image4x4 : List Byte := (List.range 64).map fun o => if o % 4 = 3 then 0xff else BitVec.ofNat 8 (0x40 + o)

/-- V20's output, in four rows of pixels. -/
def stego4x4 : List Byte :=
  hexBytes 16 0x404042ff444446ff48484aff4c4c4eff ++ hexBytes 16 0x505052ff545456ff58585aff5c5c5eff ++
  hexBytes 16 0x606062ff646466ff69686bff6d6c6fff ++ hexBytes 16 0x717173ff747576ff79787bff7d7c7fff

/-- EMBED of the bytes `p` at 0 into V20's image at 0x100. -/
def embedState (p : List Byte) (out fmt : Word) : State :=
  withOps (load (small 1024) [(0, p), (0x100, image4x4)])
    [(.srcAddr, 0), (.srcLen, BitVec.ofNat 32 p.length), (.imgAddr, 0x100), (.imgOutAddr, out), (.imgW, 4), (.imgH, 4),
      (.imgFmt, fmt)]

/-- V20: elsewhere and in place. -/
theorem test_embed :
    resultAfter 0x140 64 (exec .embed (embedState [0xde, 0xad] 0x140 0)) = some (64, stego4x4) ∧
    resultAfter 0x100 64 (exec .embed (embedState [0xde, 0xad] 0x100 0)) = some (64, stego4x4) := by decide +kernel

/-- V24 and V27: one byte too many, a partial overlap, beyond the end, at the last byte, and the format. -/
theorem test_embed_errors :
    statusAfter (exec .embed (embedState [0xde, 0xad, 0xbe] 0x140 0)) = some 0x00000302 ∧
    statusAfter (exec .embed (embedState [0xde, 0xad] 0x104 0)) = some 0x00001202 ∧
    statusAfter (exec .embed (embedState [0xde, 0xad] 0x3C1 0)) = some 0x00001202 ∧
    statusAfter (exec .embed (embedState [0xde, 0xad] 0x3C0 0)) = some 0x00000002 ∧
    statusAfter (exec .embed (embedState [0xde, 0xad] 0x104 1)) = some 0x00000502 := by decide +kernel

/-- EXTRACT from the image `px` at 0x140. -/
def extractState (px : List Byte) (w h dst : Word) : State :=
  withOps (load (small 1024) [(0x140, px)]) [(.imgAddr, 0x140), (.imgW, w), (.imgH, h), (.dstAddr, dst)]

/-- V21, and the destination rows of V27. -/
theorem test_extract :
    resultAfter 0x3FE 2 (exec .extract (extractState stego4x4 4 4 0x3FE)) = some (2, [0xde, 0xad]) ∧
    statusAfter (exec .extract (extractState stego4x4 4 4 0x3FF)) = some 0x00001202 ∧
    statusAfter (exec .extract (extractState stego4x4 4 4 0x17F)) = some 0x00001202 ∧
    statusAfter (exec .extract (extractState stego4x4 4 4 0x180)) = some 0x00000002 := by decide +kernel

/-- V22 and V25: an image never embedded, all ones (no 32-bit wrap), and too few pixels. -/
theorem test_extract_errors :
    statusAfter (exec .extract (extractState image4x4 4 4 0xFFFFFFFF)) = some 0x00000402 ∧
    statusAfter (exec .extract (extractState (List.replicate 44 0xff) 11 1 0)) = some 0x00000402 ∧
    statusAfter (exec .extract (extractState stego4x4 3 3 0)) = some 0x00000402 ∧
    statusAfter (exec .extract (extractState stego4x4 0x10000 0x10000 0)) = some 0x00001202 := by decide +kernel

/-! ### Registers and handshake (V30), one step each -/

/-- `wr CMD, 5` from reset: BUSY. -/
theorem test_cmd_accepted : statusAfter (hostTurn (.wr 0x00 5) State.reset) = some 0x00000001 := by decide

/-- While BUSY `wr STATUS, 2` and `wr CMD, 1` are ignored. -/
theorem test_busy_ignores :
    nextState (hostTurn (.wr 0x00 1) (busyWith 5)) = some (busyWith 5) ∧
    nextState (hostTurn (.wr 0x04 2) (busyWith 5)) = some (busyWith 5) := by decide +kernel

/-- The engine's step on EMBED with all operands 0: PayloadTooLarge. -/
theorem test_engine_step : statusAfter (step (busyWith 5)) = some 0x00000302 := by decide +kernel

/-- V28: an illegal word beats the gate. -/
theorem test_engine_illegal :
    statusAfter (step { busyWith 0x55 with gate := ⟨true, false⟩ }) = some 0x00001102 := by decide +kernel

/-- `wr CTRL, 0xFFFF_FFFF` reads back as 3. -/
theorem test_ctrl_mask :
    nextState (hostTurn (.wr 0x08 0xFFFFFFFF) State.reset) = some { State.reset with ctrl := ⟨true, true⟩ } ∧
    ctrlWord ⟨true, true⟩ = 3 := by decide +kernel

/-- Both interrupts enabled and PayloadTooLarge reported: `STATUS = 0x0000_0302`. -/
def reported : State := { State.reset with ctrl := ⟨true, true⟩, status := ⟨false, true, 3⟩ }

/-- `irq` is 1; `wr STATUS, 0xFFFF_FFFD` changes nothing; `ack` clears. -/
theorem test_irq_and_ack :
    irq reported = true ∧ nextState (hostTurn (.wr 0x04 0xFFFFFFFD) reported) = some reported ∧
    nextState (hostTurn (.wr 0x04 2) reported) = some { State.reset with ctrl := ⟨true, true⟩ } := by decide +kernel

/-- EMBED has failed and the host has not read STATUS: its result is there, and the window of R93(c) is open. -/
def unread : State := complete (busyWith 5) (.error .payloadTooLarge)

/-- R93(c): in the window `stm` answers as many bytes as asked for, none of them known; a STATUS read (0x0302) closes it; then
`stm` answers what MEM holds. -/
theorem test_window :
    nextState (hostTurn (.stm 0 2) unread) = some { unread with answers := [.bytes (freeBytes 0 2)], freePos := 2 } ∧
    nextState (hostTurn (.rd 0x04) unread) = some { unread with answers := [.word 0x0302], synced := true } ∧
    nextState (hostTurn (.stm 0 2) { unread with synced := true }) =
      some { unread with answers := [.bytes [0, 0]], synced := true } := ⟨rfl, by decide +kernel, by decide +kernel⟩

/-- R90, R16: EMBED's result is its 64 output bytes, as far as they lie in MEM; while BUSY a STATUS read closes nothing. -/
theorem test_results :
    (acceptCommand (embedState [0xde, 0xad] 0x140 0) 5).results = [⟨0x140, 64⟩] ∧
    (acceptCommand (embedState [0xde, 0xad] 0x3E0 0) 5).results = [⟨0x3E0, 32⟩] ∧
    nextState (hostTurn (.rd 0x04) (busyWith 7)) = some { busyWith 7 with answers := [.word 1] } := by decide +kernel

/-- R93(c), R94: a second command before any STATUS read keeps the first one's window open; after one it does not. -/
theorem test_twoWindows :
    let s := { embedState [0xde, 0xad] 0x140 0 with synced := false, results := [⟨0x80, 39⟩] }
    (acceptCommand s 5).results = [⟨0x80, 39⟩, ⟨0x140, 64⟩] ∧ (acceptCommand (noteRead s .status) 5).results = [⟨0x140, 64⟩] := by
  decide +kernel

/-- The call form `embed` of R139 writes the registers of program P1 in its order. -/
theorem test_call_form :
    (embedForm 0x300 0x100 12 10 0x80 39).take 8 =
      [.host (.wr 0x38 0x300), .host (.wr 0x34 0x100), .host (.wr 0x3c 12), .host (.wr 0x40 10), .host (.wr 0x44 0),
        .host (.wr 0x20 0x80), .host (.wr 0x24 39), .host (.wr 0x00 5)] := by decide

/-- The placed instruction is the one the next step runs. -/
theorem test_withFetchWord :
    nextState (step (State.reset.withFetchWord 32 5)) = nextState (exec .embed (dropTurn (issueWord State.reset 5))) := by
  decide +kernel

/-! ### Witnesses: states and operands that meet the hypotheses of the statements, clause by clause -/

/-- `DecodeAndEncodeAgree`: each of the six commands is well-formed, and a word of each decodes. -/
theorem witness_decodeAndEncode :
    ([Instr.encrypt, .decrypt, .genenc, .decryptk, .embed, .extract].all fun i => i.wellFormed) = true ∧
    decode 6 = .ok .extract := by decide

/-- `EngineDecodesTheWord`, `IllegalWordFails`, `EngineAlwaysCompletes`, `StepRunsTheDecodedCommand`: BUSY on the engine's
turn, with no schedule and with one. -/
theorem witness_engineNext (w : Word) :
    (busyWith w).status.busy = true ∧ engineNext (busyWith w) ∧ (busyWith w).turns = [] ∧ (busyWith w).curCmd = w ∧
    engineNext { busyWith w with turns := [.engine, .host .rst] } := ⟨rfl, trivial, rfl, rfl, trivial⟩

/-- The clauses of `EngineDecodesTheWord` and `IllegalWordFails` at their boundaries: 0x100, 0, 1, 6, 7, 0xff. -/
theorem witness_wordClauses :
    0x100 / 256 ≠ 0 ∧ 0 % 256 = 0 ∧ (1 / 256 = 0 ∧ 1 % 256 = 1) ∧ (2 / 256 = 0 ∧ 2 % 256 = 2) ∧ (3 / 256 = 0 ∧ 3 % 256 = 3) ∧
    (4 / 256 = 0 ∧ 4 % 256 = 4) ∧ (5 / 256 = 0 ∧ 5 % 256 = 5) ∧ (6 / 256 = 0 ∧ 6 % 256 = 6) ∧ (7 / 256 = 0 ∧ 7 ≤ 7 % 256) ∧
    (0xff / 256 = 0 ∧ 7 ≤ 0xff % 256) ∧ decode (busyWith 6).curCmd = .ok .extract := by decide

/-- `IdleMachineWaits`: the reset state. -/
theorem witness_idle : State.reset.status.busy = false ∧ State.reset.turns = [] ∧ step State.reset = .next State.reset :=
  ⟨rfl, rfl, rfl⟩

/-- `StepStopsOnlyOnBrokenDuty`: the host keeps its duty, and does not (a misaligned offset; MEM while BUSY; past the end). -/
theorem witness_hostDuty :
    hostDuty { State.reset with turns := [.host (.ldm 65532 [1, 2, 3, 4])] } ∧
    ¬ hostDuty { State.reset with turns := [.host (.ldm 65533 [1, 2, 3, 4])] } ∧
    ¬ hostDuty { State.reset with turns := [.host (.wr 0x06 1)] } ∧
    ¬ hostDuty { busyWith 5 with turns := [.host (.stm 0 1)] } := by
  have misaligned : ¬ (0x06 : Byte).toNat % 4 = 0 := by decide
  exact ⟨⟨rfl, by decide⟩, fun h => absurd h.2 (by decide), misaligned, fun h => absurd h.1 (by decide)⟩

/-- `EveryStepKeepsInvariant`: a BUSY state with the invariant and a step that changes it. -/
theorem witness_inv : Inv (busyWith 5) ∧ ∃ t, step (busyWith 5) = .next t ∧ t ≠ busyWith 5 :=
  ⟨⟨by decide, by decide, by decide, by decide, by decide, by decide, by decide, by decide, by decide⟩,
    complete (busyWith 5) (embedVerdict (busyWith 5)), rfl, by decide +kernel⟩

/-- `InvariantAtReset`: parameters and MEM contents at power-on. -/
theorem witness_powerOn :
    Params.wellFormed ⟨16, .bytes⟩ = true ∧ memWf [(0, 1), (15, 0xff)] = true ∧ memBelow 16 [(0, 1), (15, 0xff)] = true := by
  decide

/-- `EngineKeepsOperandsAndControl`: an engine step. -/
theorem witness_engineStep : (∃ t, step (busyWith 7) = .next t) ∧ engineNext (busyWith 7) := ⟨⟨_, rfl⟩, trivial⟩

/-- `CommandsWriteOnlyOutputRanges` and `FailuresAreClean`: a command that succeeds and one that fails. -/
theorem witness_outcomes :
    memWf (embedState [0xde, 0xad] 0x140 0).mem = true ∧
    (∃ t, exec .embed (embedState [0xde, 0xad] 0x140 0) = .next t ∧ t.status.err = 0) ∧
    (∃ t, exec .embed (embedState [0xde, 0xad] 0x140 1) = .next t ∧ t.status.err ≠ 0) :=
  ⟨by decide +kernel, ⟨_, exec_eq_complete _ _, by decide +kernel⟩, ⟨_, exec_eq_complete _ _, by decide +kernel⟩⟩

/-- `CommandsDependOnlyOnTheirInputs`: two states that differ in a register GENENC does not read, in GATE and in STATUS. -/
theorem witness_unreadOperand :
    let s := genState 0x200
    let s' := { setOperand s 4 7 with gate := ⟨true, false⟩, status := ⟨false, true, 3⟩ }
    s ≠ s' ∧ (∀ r, readsOperand .genenc r = true → s.reg r = s'.reg r) ∧ s.mem = s'.mem ∧ s.params = s'.params ∧
    s.entropyPos = s'.entropyPos ∧ (∃ t, exec .genenc s = .next t) ∧ ∃ t', exec .genenc s' = .next t' :=
  ⟨by decide +kernel, fun r => by cases r <;> decide, rfl, rfl, rfl, ⟨_, rfl⟩, ⟨_, rfl⟩⟩

/-- `GateGuardsDecoding`, both clauses: the gate shut; and two gates that are not shut. -/
theorem witness_gate :
    (decState ⟨true, false⟩ secret32 39 256).gate.en = true ∧ (decState ⟨true, false⟩ secret32 39 256).gate.verified = false ∧
    ((State.reset.gate.en = false ∨ State.reset.gate.verified = true) ∧
      ((⟨true, true⟩ : Gate).en = false ∨ (⟨true, true⟩ : Gate).verified = true)) := by decide

/-- `EncryptFollowsItsRule`: ranges not in order; a short secret; everything in order, the envelope ending at the last byte. -/
theorem witness_encrypt :
    ¬ encryptRangeOK (encState secret32 0x3DA) ∧
    (encryptRangeOK (encState secret31 0x3D9) ∧ secretOK .codepoints (memRead (encState secret31 0x3D9).mem 0 31) = false) ∧
    (memWf (encState secret32 0x3D9).mem = true ∧ encryptRangeOK (encState secret32 0x3D9) ∧
      secretOK .codepoints (memRead (encState secret32 0x3D9).mem 0 32) = true) := by decide +kernel

/-- A state whose MEM holds a secret at 0 and an envelope `env` at 128, for DECRYPT and DECRYPTK to 512. -/
def openState (sec env : List Byte) (srcLen dst : Word) : State :=
  withOps (load (small 1024) [(0, sec), (128, env)])
    [(.srcAddr, 128), (.srcLen, srcLen), (.dstAddr, dst), (.secAddr, 0), (.secLen, 32)]

/-- `DecryptFollowsItsRule`, the clauses that need no key: gate; ranges; secret; length 27. -/
theorem witness_decrypt_early :
    (decState ⟨true, false⟩ secret32 39 256).gate.en = true ∧
    ¬ decryptRangeOK (decState ⟨false, false⟩ secret32 39 0x84) ∧
    (decryptRangeOK (decState ⟨true, true⟩ secret31 39 256) ∧
      secretOK .codepoints (memRead (decState ⟨true, true⟩ secret31 39 256).mem 0 31) = false) ∧
    (decryptRangeOK (decState ⟨true, true⟩ secret32 27 256) ∧
      secretOK .codepoints (memRead (decState ⟨true, true⟩ secret32 27 256).mem 0 32) = true ∧
      opNat (decState ⟨true, true⟩ secret32 27 256) .srcLen < 28) := by decide +kernel

/-- `DecryptFollowsItsRule`, a tag that does not verify: whatever the derived key, 28 zero bytes or 12 zero bytes and a tag
of ones is an envelope whose tag is wrong. -/
theorem witness_decrypt_badTag : ∃ s : State, s.gate.en = false ∧ decryptRangeOK s ∧
    secretOK s.params.secretLenUnit (memRead s.mem (opNat s .secAddr) (opNat s .secLen)) = true ∧ 28 ≤ opNat s .srcLen ∧
    gcmAD (deriveKey (memRead s.mem (opNat s .secAddr) (opNat s .secLen))) (memRead s.mem (opNat s .srcAddr) 12)
      (memRead s.mem (opNat s .srcAddr + 28) (opNat s .srcLen - 28)) (memRead s.mem (opNat s .srcAddr + 12) 16) = none := by
  by_cases h : gcmTag (deriveKey secret32) (zeroBytes 12) [] = zeroBytes 16
  · refine ⟨openState secret32 (zeroBytes 12 ++ List.replicate 16 0xff) 28 512, by decide +kernel, by decide +kernel,
      by decide +kernel, by decide +kernel, ?_⟩
    have e : memRead (openState secret32 (zeroBytes 12 ++ List.replicate 16 0xff) 28 512).mem 0 32 = secret32 ∧
        memRead (openState secret32 (zeroBytes 12 ++ List.replicate 16 0xff) 28 512).mem 128 12 = zeroBytes 12 ∧
        memRead (openState secret32 (zeroBytes 12 ++ List.replicate 16 0xff) 28 512).mem 156 0 = [] ∧
        memRead (openState secret32 (zeroBytes 12 ++ List.replicate 16 0xff) 28 512).mem 140 16 = List.replicate 16 0xff := by
      decide +kernel
    show gcmAD (deriveKey (memRead _ 0 32)) (memRead _ 128 12) (memRead _ 156 0) (memRead _ 140 16) = none
    rw [e.1, e.2.1, e.2.2.1, e.2.2.2, gcmAD, h, if_neg (by decide)]
  · refine ⟨openState secret32 (zeroBytes 28) 28 512, by decide +kernel, by decide +kernel, by decide +kernel,
      by decide +kernel, ?_⟩
    have e : memRead (openState secret32 (zeroBytes 28) 28 512).mem 0 32 = secret32 ∧
        memRead (openState secret32 (zeroBytes 28) 28 512).mem 128 12 = zeroBytes 12 ∧
        memRead (openState secret32 (zeroBytes 28) 28 512).mem 156 0 = [] ∧
        memRead (openState secret32 (zeroBytes 28) 28 512).mem 140 16 = zeroBytes 16 := by decide +kernel
    show gcmAD (deriveKey (memRead _ 0 32)) (memRead _ 128 12) (memRead _ 156 0) (memRead _ 140 16) = none
    rw [e.1, e.2.1, e.2.2.1, e.2.2.2, gcmAD, if_neg h]

/-- A state that ENCRYPT has just left, with the operand registers set to open its envelope to 512. -/
def reopenState (t : State) : State :=
  withOps t [(.srcAddr, 128), (.srcLen, 39), (.dstAddr, 512), (.secAddr, 0), (.secLen, 32)]

/-- What ENCRYPT leaves in the state of `test_encrypt`. -/
def encDone : State := complete (encState secret32 128) (encryptVerdict (encState secret32 128))

/-- `EncryptThenDecryptRoundTrip`. -/
theorem witness_encryptThenDecrypt :
    memWf (encState secret32 128).mem = true ∧ exec .encrypt (encState secret32 128) = .next encDone ∧
    encDone.status.err = 0 ∧ (reopenState encDone).mem = encDone.mem ∧ (reopenState encDone).params = encDone.params ∧
    (reopenState encDone).gate.en = false ∧ opNat (reopenState encDone) .srcAddr = opNat (encState secret32 128) .dstAddr ∧
    opNat (reopenState encDone) .srcLen = 28 + opNat (encState secret32 128) .srcLen ∧
    opNat (reopenState encDone) .secAddr = opNat (encState secret32 128) .secAddr ∧
    opNat (reopenState encDone) .secLen = opNat (encState secret32 128) .secLen ∧ decryptRangeOK (reopenState encDone) :=
  ⟨by decide +kernel, rfl, by decide +kernel, rfl, rfl, by decide +kernel, by decide +kernel, by decide +kernel,
    by decide +kernel, by decide +kernel, by decide +kernel⟩

/-- `DecryptFollowsItsRule`, success: an envelope of the empty plaintext sealed under the derived key. -/
theorem witness_decrypt_success :
    let s := openState secret32 (sealEnvelope (deriveKey secret32) (zeroBytes 12) []) 28 1024
    memWf s.mem = true ∧ s.gate.en = false ∧ decryptRangeOK s ∧ 28 ≤ opNat s .srcLen ∧
    secretOK s.params.secretLenUnit (memRead s.mem (opNat s .secAddr) (opNat s .secLen)) = true ∧
    gcmAD (deriveKey (memRead s.mem (opNat s .secAddr) (opNat s .secLen))) (memRead s.mem (opNat s .srcAddr) 12)
      (memRead s.mem (opNat s .srcAddr + 28) (opNat s .srcLen - 28)) (memRead s.mem (opNat s .srcAddr + 12) 16) = some [] := by
  intro s
  have hw0 : memWf (memWrite [] 0 secret32) = true := memWrite_wf rfl
  have hmem : s.mem = memWrite (memWrite [] 0 secret32) 128 (sealEnvelope (deriveKey secret32) (zeroBytes 12) []) := rfl
  have hlen := sealEnvelope_length (deriveKey secret32) (zeroBytes 12) [] (by decide)
  have hsec : memRead s.mem 0 32 = secret32 := by
    rw [hmem, memRead_memWrite_other hw0 (by rw [hlen]; omega)]
    exact memRead_memWrite_same (s := secret32) rfl
  have henv : memRead s.mem 128 28 = sealEnvelope (deriveKey secret32) (zeroBytes 12) [] := by
    rw [hmem]
    have := memRead_memWrite_same (a := 128) (s := sealEnvelope (deriveKey secret32) (zeroBytes 12) []) hw0
    rwa [hlen] at this
  refine ⟨by rw [hmem]; exact memWrite_wf hw0, rfl, by decide, by decide, ?_, ?_⟩
  · show secretOK .codepoints (memRead s.mem 0 32) = true
    rw [hsec]
    decide +kernel
  · show gcmAD (deriveKey (memRead s.mem 0 32)) (memRead s.mem 128 12) (memRead s.mem (128 + 28) (28 - 28))
      (memRead s.mem (128 + 12) 16) = some []
    rw [← openEnvelope_memRead _ _ 128 28 (by omega), henv, hsec, sealEnvelope]
    generalize deriveKey secret32 = K
    rw [openEnvelope_parts K (zeroBytes 12) _ _ (by decide) (by rw [gcmAE, gcmTag_length])]
    simp only [gcmAD, gcmAE, gctr_gctr, if_true]

/-- `GenencFollowsItsRule`: an overlap, and ranges in order. -/
theorem witness_genenc :
    ¬ genencRangeOK (genState 0x90) ∧ memWf (genState 0xA7).mem = true ∧ genencRangeOK (genState 0xA7) := by decide +kernel

/-- What GENENC leaves in that state. -/
def genDone : State := complete (genState 0xA7) (genencVerdict (genState 0xA7))

/-- `GenencThenDecryptkRoundTrip`. -/
theorem witness_genencThenDecryptk :
    let u := withOps genDone [(.srcAddr, 128), (.srcLen, 39), (.dstAddr, 512), (.secLen, 32)]
    memWf (genState 0xA7).mem = true ∧ exec .genenc (genState 0xA7) = .next genDone ∧ genDone.status.err = 0 ∧
    u.mem = genDone.mem ∧ u.params = genDone.params ∧ u.gate.en = false ∧
    opNat u .srcAddr = opNat (genState 0xA7) .dstAddr ∧ opNat u .srcLen = 28 + opNat (genState 0xA7) .srcLen ∧
    opNat u .secAddr = opNat (genState 0xA7) .secAddr ∧ opNat u .secLen = 32 ∧ decryptRangeOK u :=
  ⟨by decide +kernel, rfl, by decide +kernel, rfl, rfl, by decide +kernel, by decide +kernel, by decide +kernel,
    by decide +kernel, by decide +kernel, by decide +kernel⟩

/-- `EncryptThenDecryptkRoundTrip`: the derived key written at 600 after ENCRYPT. -/
theorem witness_encryptThenDecryptk :
    let u := withOps { encDone with mem := memWrite encDone.mem 600 (deriveKey secret32) }
      [(.srcAddr, 128), (.srcLen, 39), (.dstAddr, 512), (.secAddr, 600), (.secLen, 32)]
    memWf (encState secret32 128).mem = true ∧ memWf u.mem = true ∧ exec .encrypt (encState secret32 128) = .next encDone ∧
    encDone.status.err = 0 ∧ u.gate.en = false ∧ opNat u .srcLen = 28 + opNat (encState secret32 128) .srcLen ∧
    opNat u .secLen = 32 ∧ memRead u.mem (opNat u .srcAddr) 39 = memRead encDone.mem 128 39 ∧
    memRead u.mem (opNat u .secAddr) 32 = deriveKey (memRead (encState secret32 128).mem 0 32) ∧ decryptRangeOK u := by
  intro u
  have hw : memWf (encState secret32 128).mem = true := by decide +kernel
  have hv : ∃ f, encryptVerdict (encState secret32 128) = .ok f :=
    ⟨_, encryptVerdict_ok_iff.2 ⟨by decide +kernel, by decide +kernel, rfl⟩⟩
  have hwd : memWf encDone.mem = true := by
    obtain ⟨f, hf⟩ := hv
    unfold encDone
    rw [hf]
    exact memWriteAll_wf hw
  have hsec : memRead (encState secret32 128).mem 0 32 = secret32 := by decide +kernel
  have hum : u.mem = memWrite encDone.mem 600 (deriveKey secret32) := rfl
  refine ⟨hw, by rw [hum]; exact memWrite_wf hwd, rfl, by decide +kernel, by decide +kernel, by decide +kernel,
    by decide +kernel, ?_, ?_, by decide +kernel⟩
  · show memRead u.mem 128 39 = _
    rw [hum, memRead_memWrite_other hwd (by simp)]
  · show memRead u.mem 600 32 = _
    rw [hum, hsec]
    have := memRead_memWrite_same (a := 600) (s := deriveKey secret32) hwd
    rwa [deriveKey_length] at this

/-- `DecryptkFollowsItsRule`: gate; key length; ranges; 27 bytes; a wrong tag; success. -/
theorem witness_decryptk :
    (decState ⟨true, false⟩ secret32 39 256).gate.verified = false ∧
    opNat (deckState key0 31 39) .secLen ≠ 32 ∧ ¬ decryptRangeOK (openState key0 helloEnvelope 39 0x84) ∧
    (opNat (deckState key0 32 27) .secLen = 32 ∧ decryptRangeOK (deckState key0 32 27) ∧
      opNat (deckState key0 32 27) .srcLen < 28) ∧
    (decryptRangeOK (deckState (zeroBytes 32) 32 39) ∧
      gcmAD (memRead (deckState (zeroBytes 32) 32 39).mem 0 32) (memRead (deckState (zeroBytes 32) 32 39).mem 128 12)
        (memRead (deckState (zeroBytes 32) 32 39).mem 156 11) (memRead (deckState (zeroBytes 32) 32 39).mem 140 16) = none) ∧
    (memWf (deckState key0 32 39).mem = true ∧ decryptRangeOK (deckState key0 32 39) ∧
      gcmAD (memRead (deckState key0 32 39).mem 0 32) (memRead (deckState key0 32 39).mem 128 12)
        (memRead (deckState key0 32 39).mem 156 11) (memRead (deckState key0 32 39).mem 140 16) = some hello) := by
  decide +kernel

/-- `EmbedFollowsItsRule`: format; ranges; a byte too many; exactly at capacity, elsewhere and in place. -/
theorem witness_embed :
    opNat (embedState [0xde, 0xad] 0x140 1) .imgFmt ≠ 0 ∧
    (opNat (embedState [0xde, 0xad] 0x104 0) .imgFmt = 0 ∧ ¬ embedRangeOK (embedState [0xde, 0xad] 0x104 0)) ∧
    (embedRangeOK (embedState [0xde, 0xad, 0xbe] 0x140 0) ∧ 3 * 4 * 4 < 32 + 8 * 3) ∧
    (memWf (embedState [0xde, 0xad] 0x140 0).mem = true ∧ embedRangeOK (embedState [0xde, 0xad] 0x140 0) ∧
      embedRangeOK (embedState [0xde, 0xad] 0x100 0) ∧ 32 + 8 * 2 ≤ 3 * 4 * 4) := by decide +kernel

/-- `ExtractFollowsItsRule`: format; image out of MEM; too few pixels; a prefix beyond capacity; a destination not in order;
and success. -/
theorem witness_extract :
    opNat (setOperand (extractState stego4x4 4 4 0) 9 1) .imgFmt ≠ 0 ∧
    ¬ rangeValid (extractState stego4x4 0x10000 0x10000 0) (imgRange (extractState stego4x4 0x10000 0x10000 0)) ∧
    (rangeValid (extractState stego4x4 3 3 0) (imgRange (extractState stego4x4 3 3 0)) ∧ 3 * 3 * 3 < 32) ∧
    (unbe32 (bytes (readBits (memRead (extractState image4x4 4 4 0).mem 0x140 64) 0 32)) = 1227133513) ∧
    (unbe32 (bytes (readBits (memRead (extractState stego4x4 4 4 0x3FF).mem 0x140 64) 0 32)) = 2 ∧
      32 + 8 * 2 ≤ 3 * 4 * 4 ∧ ¬ extractDstOK (extractState stego4x4 4 4 0x3FF) 2) ∧
    (memWf (extractState stego4x4 4 4 0x3FE).mem = true ∧ extractDstOK (extractState stego4x4 4 4 0x3FE) 2) := by
  decide +kernel

/-- What EMBED leaves in V20's state. -/
def embedDone : State := complete (embedState [0xde, 0xad] 0x140 0) (embedVerdict (embedState [0xde, 0xad] 0x140 0))

/-- `EmbedThenExtractRoundTrip`. -/
theorem witness_embedThenExtract :
    let u := withOps embedDone [(.imgAddr, 0x140), (.dstAddr, 0x3FE)]
    exec .embed (embedState [0xde, 0xad] 0x140 0) = .next embedDone ∧ embedDone.status.err = 0 ∧
    u.mem = embedDone.mem ∧ u.params = embedDone.params ∧ u.gate.en = false ∧ opNat u .imgAddr = 0x140 ∧
    opNat u .imgW = 4 ∧ opNat u .imgH = 4 ∧ opNat u .imgFmt = 0 ∧ extractDstOK u 2 :=
  ⟨rfl, by decide +kernel, rfl, rfl, by decide +kernel, by decide +kernel, by decide +kernel, by decide +kernel,
    by decide +kernel, by decide +kernel⟩

/-- `ExtractSeesThePixelCountOnly`: V21, then 16 by 1 (which still covers 48 bits) and 15 by 1 (which does not). -/
theorem witness_extractDimensions :
    statusAfter (exec .extract (extractState stego4x4 4 4 0x3FE)) = some 0x00000002 ∧
    (32 + 8 * 2 ≤ 3 * opNat (extractState stego4x4 16 1 0x3FE) .imgW * 1 ∧
      extractDstOK (extractState stego4x4 16 1 0x3FE) 2) ∧
    (rangeValid (extractState stego4x4 15 1 0x3FE) (imgRange (extractState stego4x4 15 1 0x3FE)) ∧
      3 * opNat (extractState stego4x4 15 1 0x3FE) .imgW * 1 < 32 + 8 * 2) := by decide +kernel

/-- `BitsAndBytesAreInverse`, `SubchannelIndexIsABijection`, `EmbedBitsByteByByte`, `FrameIsPrefixAndPayload`. -/
theorem witness_bitPacking :
    ([0xA5#8] : List Byte)[0]? = some 0xA5 ∧ 7 ≤ 7 ∧ (bits [0xA5]).length = 8 * 1 ∧ 2 < 3 ∧ 46 < 47 ∧
    ([true, false] : List Bool)[1]? = some false ∧ ([3#8, 5#8] : List Byte)[off 1]? = some 5 ∧
    (∀ i, i < 2 → 3 ≠ off i) ∧ ([] : List Byte).length < 2 ^ 32 := by decide

/-- `StegoRoundTripOnBuffers` at capacity, and `EmbeddingTouchesOnlyLowBits` on two images that differ in a used low bit. -/
theorem witness_stego :
    (image4x4.length = 4 * 4 * 4 ∧ 32 + 8 * [0xde, 0xad].length ≤ 3 * 4 * 4) ∧
    ([2#8, 5#8].length = [3#8, 5#8].length ∧ (2#8 >>> 1 = 3#8 >>> 1) ∧ (∀ i, i < 1 → 1 ≠ off i)) := by decide

/-- `AesIsAPermutation` and `ChangedTagOrIvIsRejected`: a key, two IVs, and a tag that is another one by its length. -/
theorem witness_aead :
    key0.length = 32 ∧ iv0.length = 12 ∧ (zeroBytes 12).length = 12 ∧ iv0 ≠ zeroBytes 12 ∧
    aes256 key0 0 = aes256 key0 0 ∧ [] ≠ (gcmAE key0 iv0 hello).2 :=
  ⟨by decide, by decide, by decide, by decide, rfl, fun h => absurd (congrArg List.length h) (by
    rw [gcmAE, gcmTag_length]; decide)⟩

/-- `GhashSeesOneChangedBlock`: the identity block sends only 0 to 0, and two blocks that differ. -/
theorem witness_ghash :
    (∀ X : Block, gf128Mul X (1#128 <<< 127) = 0 → X = 0) ∧ ([] : List Byte).length % 16 = 0 ∧
    (zeroBytes 16).length = 16 ∧ (hexBytes 16 1).length = 16 ∧ zeroBytes 16 ≠ hexBytes 16 1 :=
  ⟨fun X h => by rwa [gf128Mul_one] at h, by decide, by decide, by decide, by decide⟩

/-- `StepRunsTheHostOperation`. -/
theorem witness_hostTurn : ({ State.reset with turns := [.host .sampleIrq] } : State).turns = .host .sampleIrq :: [] := rfl

/-- `CmdWriteIsAccepted`, `WritesWhileBusyAreIgnored`, `OperandRegistersReadBack`, `StatusReadsAndClears`,
`CtrlAndGateKeepTwoBits`, `ReservedAndReadOnlyOffsets`, `InterruptLine`: BUSY either way, an illegal word, bit 1 either way,
offsets at the ends of their ranges. -/
theorem witness_registers :
    State.reset.status.busy = false ∧ (busyWith 5).status.busy = true ∧ (∀ i, decode 7 ≠ .ok i) ∧
    (0x44 : Byte).toNat % 4 = 0 ∧ (2 : Word).getLsbD 1 = true ∧ (0xFFFFFFFD : Word).getLsbD 1 = false ∧
    ((0x14 : Byte).toNat % 4 = 0 ∧ 0x14 ≤ (0x14 : Byte).toNat ∧ (0x1C : Byte).toNat ≤ 0x1C) ∧
    ((0x48 : Byte).toNat % 4 = 0 ∧ 0x48 ≤ (0x48 : Byte).toNat) ∧ ((0xFC : Byte).toNat % 4 = 0 ∧ 0x48 ≤ (0xFC : Byte).toNat) :=
  ⟨rfl, rfl, fun i => by cases i <;> decide, by decide, by decide, by decide, by decide, by decide, by decide⟩

/-- `HostMemoryWindow` up to the last byte of MEM, and `BrokenDutiesAreRefused`. -/
theorem witness_window :
    memWf (small 16).mem = true ∧ (small 16).status.busy = false ∧ (small 16).synced = true ∧ (14 : Word).toNat + [1#8, 2#8].length ≤ 16 ∧
    (14 : Word).toNat + 2 ≤ (small 16).params.memBytes ∧ (0x05 : Byte).toNat % 4 ≠ 0 ∧ (busyWith 5).status.busy = true := by
  decide

/-- `ResetEventClearsRegisters`: idle, a command running, a word that names none. -/
theorem witness_resetEvent :
    memWf (busyWith 5).mem = true ∧ State.reset.status.busy = false ∧ decode (busyWith 5).curCmd = .ok .embed ∧
    (∀ i, decode (busyWith 7).curCmd ≠ .ok i) := ⟨by decide, rfl, by decide, fun i => by cases i <;> decide⟩

/-- `CmdWriteAndStatusReadSynchronise`: a register write, dropped, while a command waits for its turn; and BUSY = 0. -/
theorem witness_synchronise :
    let s := { busyWith 5 with turns := [.host (.wr 0x3C 9), .engine] }
    s.status.busy = true ∧ s.turns = .host (.wr 0x3C 9) :: [.engine] ∧ HostOp.wr 0x3C 9 ≠ .rst ∧
    nextState (step s) = some { busyWith 5 with turns := [.engine] } ∧ State.reset.status.busy = false ∧
    engineNext State.reset :=
  ⟨rfl, rfl, by decide, by decide +kernel, rfl, trivial⟩

/-- `OnlyStatusReadOrResetClosesTheWindow`: a step that closes it, one that opens it. -/
theorem witness_closing :
    let s := { unread with turns := [.host (.rd 0x04)] }
    let o := { State.reset with turns := [.host (.wr 0x00 7)] }
    (∃ t, step s = .next t ∧ s.synced = false ∧ t.synced = true) ∧ ∃ t, step o = .next t ∧ o.synced = true ∧ t.synced = false :=
  ⟨⟨_, rfl, rfl, rfl⟩, _, rfl, rfl, rfl⟩

/-- `UnsynchronisedMemoryAccess` up to the last byte of MEM, and its clause for an acknowledged DONE. -/
theorem witness_unsynchronised :
    Inv unread ∧ unread.status.busy = false ∧ unread.synced = false ∧ [1#8, 2#8] ≠ [] ∧
    (1022 : Word).toNat + [1#8, 2#8].length ≤ unread.params.memBytes ∧ (1022 : Word).toNat + 2 ≤ unread.params.memBytes ∧
    Inv (acknowledge unread) ∧ (acknowledge unread).status.done = false :=
  ⟨⟨by decide, by decide, by decide, by decide, by decide, by decide, by decide, by decide, by decide⟩, by decide, by decide,
    by decide, by decide, by decide,
    ⟨by decide, by decide, by decide, by decide, by decide, by decide, by decide, by decide, by decide⟩, by decide⟩

/-- `ResultRangesAreOutputRanges`: EMBED accepted, a word that names no command, and a step of each kind of its last clause. -/
theorem witness_results :
    (embedState [0xde, 0xad] 0x3E0 0).status.busy = false ∧
    (∃ t, hostTurn (.wr 0x00 5) (embedState [0xde, 0xad] 0x3E0 0) = .next t) ∧ decode 5 = .ok .embed ∧
    (∃ t, hostTurn (.wr 0x00 7) (embedState [0xde, 0xad] 0x3E0 0) = .next t) ∧ (∀ i, decode 7 ≠ .ok i) ∧
    (∃ t, step unread = .next t) ∧ (∃ t, step { unread with turns := [.host .rst] } = .next t) ∧
    (∃ t, step { unread with turns := [.host (.wr 0x00 5)] } = .next t) :=
  ⟨by decide +kernel, ⟨_, rfl⟩, by decide, ⟨_, rfl⟩, fun i => by cases i <;> decide, ⟨_, rfl⟩, ⟨_, rfl⟩, ⟨_, rfl⟩⟩

end Sys2Proof.Tests
end

section
/-! PROOFS. The rules of the register map and of the completion step that the statements about the state use. -/

namespace Sys2Proof.Machine

section HostRegisters
variable {s : State} {offset : Byte} {r : RegSel}

/-- A host write at an offset of the register map never stops (R45). -/
theorem hostTurn_wr (h : regAt offset = some r) (v : Word) :
    hostTurn (.wr offset v) s = .next (writeReg s r v) := by
  simp only [hostTurn, h]

/-- A host read at an offset of the register map never stops (R33, R45). -/
theorem hostTurn_rd (h : regAt offset = some r) : hostTurn (.rd offset) s = .next (hostRead s r) := by
  simp only [hostTurn, h]

theorem writeReg_busy (h : s.status.busy = true) (r : RegSel) (v : Word) : writeReg s r v = s := if_pos h

theorem writeReg_idle (h : s.status.busy = false) (r : RegSel) (v : Word) : writeReg s r v = writeRegIdle s r v :=
  if_neg (by simp [h])

theorem noteRead_of_ne_status (h : r ≠ .status) : noteRead s r = s := if_neg fun hs => h hs.1

/-- A read of any register but STATUS does nothing but answer (R33, R87). -/
theorem hostRead_of_ne_status (h : r ≠ .status) : hostRead s r = answer s (.word (readReg s r)) := by
  rw [hostRead, noteRead_of_ne_status h]

/-- A host read changes the answers and, of the model's own, `synced`; nothing else (R33, R87). -/
theorem hostRead_frame (s : State) (r : RegSel) :
    hostRead s r = { s with answers := s.answers ++ [.word (readReg s r)], synced := (hostRead s r).synced } := by
  unfold hostRead noteRead
  split <;> rfl

/-- Operand register `i` stands at `0x20 + 4*i` (R30). -/
theorem regAt_operand : ∀ i : Fin 10, regAt (BitVec.ofNat 8 (0x20 + 4 * i.val)) = some (.operand i) := by
  decide

theorem regAt_cmd : regAt 0x00 = some .cmd := rfl

end HostRegisters

/-- The completion step touches STATUS, OUT_LEN, MEM and the entropy port's position only (R31, R270). -/
theorem restUnchanged_complete (s : State) (v : Verdict) : RestUnchanged s (complete s v) := by
  constructor <;> simp

/-- `fail E` is what R271 says of a failed command. -/
theorem failedWith_completeFail (s : State) (e : Error) : FailedWith (errorCode e) s (completeFail s e) where
  status := rfl
  outLen := rfl
  mem := rfl
  draws := rfl
  rest := restUnchanged_complete s (.error e)

/-- A word that names no command ends with IllegalCommand (R121, R266). -/
theorem engineVerdict_of_illegal {s : State} (h : ∀ i, decode s.curCmd ≠ .ok i) :
    engineVerdict s = .error .illegalCommand := by
  unfold engineVerdict
  split
  · next i hi => exact absurd hi (h i)
  · rfl

/-- The engine's turn on an accepted word that names no command. -/
theorem engineTurn_of_illegal {s : State} (hb : s.status.busy = true) (h : ∀ i, decode s.curCmd ≠ .ok i) :
    engineTurn s = .next (completeFail s .illegalCommand) := by
  rw [engineTurn_eq, if_pos hb, engineVerdict_of_illegal h, complete_error]

/-! ### What a command's verdict depends on (R31) -/

/-- Two states agree on all that the rule of command `i` may read (R31): the marked operand registers, the gate if `i` is
gated, MEM, the parameters and the entropy port. -/
structure SameInputs (i : Instr) (s s' : State) : Prop where
  operand : ∀ r, readsOperand i r = true → s.reg r = s'.reg r
  gate : gated i = true → gateShut s = gateShut s'
  mem : s.mem = s'.mem
  params : s.params = s'.params
  entropyPos : s.entropyPos = s'.entropyPos

namespace SameInputs
variable {i : Instr} {s s' : State}

theorem opNat_eq (h : SameInputs i s s') {r : Reg} (hr : readsOperand i r = true) : opNat s r = opNat s' r :=
  congrArg BitVec.toNat (h.operand r hr)

theorem readRange_eq (h : SameInputs i s s') (r : Range) : readRange s r = readRange s' r := by
  rw [readRange, readRange, h.mem]

theorem rangeValid_iff (h : SameInputs i s s') (r : Range) : rangeValid s r ↔ rangeValid s' r := by
  rw [rangeValid, rangeValid, h.params]

theorem drawBytes_eq (h : SameInputs i s s') (k n : Nat) : drawBytes s k n = drawBytes s' k n := by
  rw [drawBytes, drawBytes, h.entropyPos]

theorem srcRange_eq (h : SameInputs i s s') (ha : readsOperand i .srcAddr = true) (hl : readsOperand i .srcLen = true) :
    srcRange s = srcRange s' := by
  rw [srcRange, srcRange, h.opNat_eq ha, h.opNat_eq hl]

theorem secRange_eq (h : SameInputs i s s') (ha : readsOperand i .secAddr = true) (hl : readsOperand i .secLen = true) :
    secRange s = secRange s' := by
  rw [secRange, secRange, h.opNat_eq ha, h.opNat_eq hl]

theorem sealedRange_eq (h : SameInputs i s s') (ha : readsOperand i .dstAddr = true)
    (hl : readsOperand i .srcLen = true) : sealedRange s = sealedRange s' := by
  rw [sealedRange, sealedRange, h.opNat_eq ha, h.opNat_eq hl]

theorem openedRange_eq (h : SameInputs i s s') (ha : readsOperand i .dstAddr = true)
    (hl : readsOperand i .srcLen = true) : openedRange s = openedRange s' := by
  rw [openedRange, openedRange, h.opNat_eq ha, h.opNat_eq hl]

theorem keyOutRange_eq (h : SameInputs i s s') (ha : readsOperand i .secAddr = true) :
    keyOutRange s = keyOutRange s' := by
  rw [keyOutRange, keyOutRange, h.opNat_eq ha]

theorem imgBytes_eq (h : SameInputs i s s') (hw : readsOperand i .imgW = true) (hh : readsOperand i .imgH = true) :
    imgBytes s = imgBytes s' := by
  rw [imgBytes, imgBytes, h.opNat_eq hw, h.opNat_eq hh]

theorem imgCapacity_eq (h : SameInputs i s s') (hw : readsOperand i .imgW = true) (hh : readsOperand i .imgH = true) :
    imgCapacity s = imgCapacity s' := by
  rw [imgCapacity, imgCapacity, h.opNat_eq hw, h.opNat_eq hh]

theorem imgRange_eq (h : SameInputs i s s') (ha : readsOperand i .imgAddr = true) (hw : readsOperand i .imgW = true)
    (hh : readsOperand i .imgH = true) : imgRange s = imgRange s' := by
  rw [imgRange, imgRange, h.opNat_eq ha, h.imgBytes_eq hw hh]

theorem imgOutRange_eq (h : SameInputs i s s') (ha : readsOperand i .imgOutAddr = true)
    (hw : readsOperand i .imgW = true) (hh : readsOperand i .imgH = true) : imgOutRange s = imgOutRange s' := by
  rw [imgOutRange, imgOutRange, h.opNat_eq ha, h.imgBytes_eq hw hh]

theorem extractedRange_eq (h : SameInputs i s s') (ha : readsOperand i .dstAddr = true) (n : Nat) :
    extractedRange s n = extractedRange s' n := by
  rw [extractedRange, extractedRange, h.opNat_eq ha]

theorem extractLen_eq (h : SameInputs i s s') (ha : readsOperand i .imgAddr = true) (hw : readsOperand i .imgW = true)
    (hh : readsOperand i .imgH = true) : extractLen s = extractLen s' := by
  rw [extractLen, extractLen, h.imgRange_eq ha hw hh, h.readRange_eq]

/-- The steps DECRYPT and DECRYPTK share (R201, R203), under one key. -/
theorem openVerdict_eq (h : SameInputs i s s') (ha : readsOperand i .srcAddr = true)
    (hl : readsOperand i .srcLen = true) (hd : readsOperand i .dstAddr = true) (K : List Byte) :
    openVerdict s K = openVerdict s' K := by
  rw [openVerdict, openVerdict, h.srcRange_eq ha hl, h.readRange_eq, h.opNat_eq hl, h.opNat_eq hd]

theorem secretKey_eq (h : SameInputs i s s') (ha : readsOperand i .secAddr = true)
    (hl : readsOperand i .secLen = true) : secretKey s = secretKey s' := by
  rw [secretKey, secretKey, h.secRange_eq ha hl, h.readRange_eq]

theorem encryptVerdict_eq (h : SameInputs .encrypt s s') : encryptVerdict s = encryptVerdict s' := by
  simp only [encryptVerdict, encryptRangeOK, h.rangeValid_iff, h.params, h.readRange_eq, h.drawBytes_eq,
    h.srcRange_eq rfl rfl, h.secRange_eq rfl rfl, h.sealedRange_eq rfl rfl, h.secretKey_eq rfl rfl,
    h.opNat_eq (r := .srcLen) rfl, h.opNat_eq (r := .dstAddr) rfl]

theorem decryptVerdict_eq (h : SameInputs .decrypt s s') : decryptVerdict s = decryptVerdict s' := by
  simp only [decryptVerdict, h.gate rfl, decryptRangeOK, h.rangeValid_iff, h.params, h.readRange_eq,
    h.srcRange_eq rfl rfl, h.secRange_eq rfl rfl, h.openedRange_eq rfl rfl, h.secretKey_eq rfl rfl,
    h.opNat_eq (r := .srcLen) rfl, h.openVerdict_eq rfl rfl rfl]

theorem genencVerdict_eq (h : SameInputs .genenc s s') : genencVerdict s = genencVerdict s' := by
  simp only [genencVerdict, genencRangeOK, h.rangeValid_iff, h.readRange_eq, h.drawBytes_eq,
    h.srcRange_eq rfl rfl, h.sealedRange_eq rfl rfl, h.keyOutRange_eq rfl,
    h.opNat_eq (r := .srcLen) rfl, h.opNat_eq (r := .dstAddr) rfl, h.opNat_eq (r := .secAddr) rfl]

theorem decryptkVerdict_eq (h : SameInputs .decryptk s s') : decryptkVerdict s = decryptkVerdict s' := by
  simp only [decryptkVerdict, h.gate rfl, decryptRangeOK, h.rangeValid_iff, h.mem,
    h.srcRange_eq rfl rfl, h.secRange_eq rfl rfl, h.openedRange_eq rfl rfl, h.openVerdict_eq rfl rfl rfl,
    h.opNat_eq (r := .srcLen) rfl, h.opNat_eq (r := .secAddr) rfl, h.opNat_eq (r := .secLen) rfl]

theorem embedVerdict_eq (h : SameInputs .embed s s') : embedVerdict s = embedVerdict s' := by
  simp only [embedVerdict, h.operand .imgFmt rfl, embedRangeOK, embeddedImage, h.rangeValid_iff,
    h.readRange_eq, h.srcRange_eq rfl rfl, h.imgRange_eq rfl rfl rfl, h.imgOutRange_eq rfl rfl rfl,
    h.imgBytes_eq rfl rfl, h.imgCapacity_eq rfl rfl, h.opNat_eq (r := .srcLen) rfl, h.opNat_eq (r := .imgAddr) rfl,
    h.opNat_eq (r := .imgOutAddr) rfl]

theorem extractVerdict_eq (h : SameInputs .extract s s') : extractVerdict s = extractVerdict s' := by
  simp only [extractVerdict, h.gate rfl, h.operand .imgFmt rfl, extractDstOK, h.rangeValid_iff,
    h.readRange_eq, h.imgRange_eq rfl rfl rfl, h.imgCapacity_eq rfl rfl,
    h.extractLen_eq rfl rfl rfl, h.extractedRange_eq rfl, h.opNat_eq (r := .dstAddr) rfl]

/-- The rule of a command gives the same verdict on two states with the same inputs (R31). -/
theorem verdictOf_eq (h : SameInputs i s s') : verdictOf i s = verdictOf i s' := by
  cases i with
  | encrypt => exact h.encryptVerdict_eq
  | decrypt => exact h.decryptVerdict_eq
  | genenc => exact h.genencVerdict_eq
  | decryptk => exact h.decryptkVerdict_eq
  | embed => exact h.embedVerdict_eq
  | extract => exact h.extractVerdict_eq

end SameInputs

/-- What the completion step leaves of one verdict depends on the state by MEM and the entropy port alone (R270). -/
theorem complete_outputs_congr {s s' : State} (v : Verdict) (hm : s.mem = s'.mem)
    (he : s.entropyPos = s'.entropyPos) :
    (complete s v).status = (complete s' v).status ∧ (complete s v).outLen = (complete s' v).outLen ∧
    (complete s v).mem = (complete s' v).mem ∧ (complete s v).entropyPos = (complete s' v).entropyPos := by
  cases v <;> simp [hm, he]

/-! ### The statements -/

/-- Settles O15: the two states have the same inputs, so the command reaches the same verdict, and the completion step
turns it into the same outputs. -/
theorem commandsDependOnlyOnTheirInputs : Obligations.CommandsDependOnlyOnTheirInputs := by
  intro i s s' t t' hops hgate hmem hparams hpos ht ht'
  have hin : SameInputs i s s' := ⟨hops, hgate, hmem, hparams, hpos⟩
  obtain rfl := exec_next_iff.1 ht
  obtain rfl := exec_next_iff.1 ht'
  rw [← hin.verdictOf_eq]
  obtain ⟨hstatus, hlen, hmem', hpos'⟩ := complete_outputs_congr (verdictOf i s) hmem hpos
  exact ⟨hstatus, hlen, hmem', hpos', complete_x s _, complete_x s' _⟩

/-- Settles O44: the offset selects operand register `i`, which a write sets alone. -/
theorem operandRegistersReadBack : Obligations.OperandRegistersReadBack := by
  intro s i v
  have hat := regAt_operand i
  constructor
  · intro hidle
    refine ⟨setOperand s i v, ?_, rfl, fun j => ?_⟩
    · rw [hostTurn_wr hat, writeReg_idle hidle]
      rfl
    · simp only [setOperand_get, eq_comm]
  · rw [hostTurn_rd hat, hostRead_of_ne_status (by simp)]
    rfl

/-- Settles O42: the write is `acceptCommand`, and the engine's verdict on an illegal word is IllegalCommand. -/
theorem cmdWriteIsAccepted : Obligations.CmdWriteIsAccepted := by
  intro s w
  refine ⟨fun hidle => ?_, fun hbusy => ?_, ?_⟩
  · refine ⟨acceptCommand s w, ?_, rfl, fun hillegal => ?_⟩
    · rw [hostTurn_wr regAt_cmd, writeReg_idle hidle]
      rfl
    · exact ⟨_, engineTurn_of_illegal rfl hillegal, failedWith_completeFail _ .illegalCommand⟩
  · rw [hostTurn_wr regAt_cmd, writeReg_busy hbusy]
  · rw [hostTurn_rd regAt_cmd, hostRead_of_ne_status (by simp)]
    rfl

/-- Settles O43: an aligned offset selects a register, whose write is dropped while BUSY = 1 and whose
read only answers. -/
theorem writesWhileBusyAreIgnored : Obligations.WritesWhileBusyAreIgnored := by
  intro s offset v haligned
  obtain ⟨r, hat⟩ := (regAt_isSome_iff offset).2 haligned
  refine ⟨fun hbusy => ?_, r, hostRead s r, hat, hostTurn_rd hat, hostRead_frame s r⟩
  rw [hostTurn_wr hat, writeReg_busy hbusy]

end Sys2Proof.Machine
end

section
/-! PROOFS. Decoding is matching all 32 bits of the command word; what the engine's step does with each word. -/

namespace Sys2Proof

/-- The opcode map has one row per command (R121, R124). -/
theorem instrOfOpc_eq_some_iff (opc : Byte) (i : Instr) : instrOfOpc opc = some i ↔ opc = opcode i := by
  cases i <;> revert opc <;> decide

/-- A word is its two fields (R120). -/
theorem zeroField_append_opcField (w : Word) : zeroField w ++ opcField w = w := by
  rw [zeroField, opcField, BitVec.extractLsb'_append_extractLsb'_eq_extractLsb' (Nat.zero_add 8).symm, BitVec.extractLsb'_eq_self]

theorem eq_encode_iff_fields (w : Word) (i : Instr) : w = encode i ↔ zeroField w = 0 ∧ opcField w = opcode i := by
  constructor
  · rintro rfl
    cases i <;> decide
  · rintro ⟨hzero, hopc⟩
    rw [← zeroField_append_opcField w, hzero, hopc]
    rfl

/-- A command's word decodes to it, and no other word does (R124). -/
theorem decode_eq_ok_iff (w : Word) (i : Instr) : decode w = .ok i ↔ w = encode i := by
  rw [eq_encode_iff_fields, ← instrOfOpc_eq_some_iff, decode]
  by_cases hzero : zeroField w = 0#24
  · cases hopc : instrOfOpc (opcField w) <;> simp [hzero]
  · simp [hzero]

theorem encode_toNat (i : Instr) : (encode i).toNat = (opcode i).toNat := by
  cases i <;> rfl

theorem decode_eq_ok_iff_toNat (w : Word) (i : Instr) : decode w = .ok i ↔ w.toNat = (opcode i).toNat := by
  rw [decode_eq_ok_iff, ← encode_toNat, BitVec.toNat_inj]

/-- The words of commands lie between 1 and 6 (R124). -/
theorem toNat_mem_one_six_of_decode_ok {w : Word} {i : Instr} (hdec : decode w = .ok i) :
    1 ≤ w.toNat ∧ w.toNat ≤ 6 := by
  rw [(decode_eq_ok_iff_toNat w i).1 hdec]
  cases i <;> decide

theorem exists_opcode_toNat_eq {n : Nat} (h1 : 1 ≤ n) (h6 : n ≤ 6) : ∃ i, (opcode i).toNat = n := by
  interval_cases n
  exacts [⟨.encrypt, rfl⟩, ⟨.decrypt, rfl⟩, ⟨.genenc, rfl⟩, ⟨.decryptk, rfl⟩, ⟨.embed, rfl⟩, ⟨.extract, rfl⟩]

/-- The low byte selects the command when bits 31:8 are zero (R121). -/
theorem decode_eq_ok_of_lowByte {w : Word} {i : Instr} (hhigh : w.toNat / 256 = 0)
    (hlow : w.toNat % 256 = (opcode i).toNat) : decode w = .ok i :=
  (decode_eq_ok_iff_toNat w i).2 (by omega)

/-- A reserved bit set makes the word illegal whatever its OPC (R125). -/
theorem decode_ne_ok_of_highBits {w : Word} (h : w.toNat / 256 ≠ 0) (i : Instr) : decode w ≠ .ok i := by
  intro hdec
  have hrange := toNat_mem_one_six_of_decode_ok hdec
  omega

/-- OPC 0x00 and 0x07..0xFF name no command (R126). -/
theorem decode_ne_ok_of_lowByte {w : Word} (h : w.toNat % 256 = 0 ∨ 7 ≤ w.toNat % 256) (i : Instr) :
    decode w ≠ .ok i := by
  intro hdec
  have hrange := toNat_mem_one_six_of_decode_ok hdec
  omega

end Sys2Proof

namespace Sys2Proof.Machine

section EngineStep
variable {s : State}

/-- On the engine's turn the step is the engine's (R318). -/
theorem step_of_engineNext (hnext : engineNext s) : step s = engineTurn (dropTurn s) := by
  obtain ⟨-, hstep⟩ | ⟨op, ts, hturns, -⟩ := step_cases s
  · exact hstep
  · simp [engineNext, hturns] at hnext

/-- The engine runs the command its word decodes to (R121, R270). -/
theorem step_of_decode_ok (hbusy : s.status.busy = true) (hnext : engineNext s) {i : Instr}
    (hdec : decode s.curCmd = .ok i) : step s = exec i (dropTurn s) := by
  simp [step_of_engineNext hnext, engineTurn, hbusy, hdec]

/-- The engine fails a word that names no command with IllegalCommand, and does nothing else (R121, R266). -/
theorem step_of_illegal (hbusy : s.status.busy = true) (hnext : engineNext s)
    (hillegal : ∀ i, decode s.curCmd ≠ .ok i) : ∃ t, step s = .next t ∧ FailedWith 0x11 (dropTurn s) t := by
  refine ⟨_, ?_, failedWith_completeFail (dropTurn s) .illegalCommand⟩
  rw [step_of_engineNext hnext, engineTurn_of_illegal (s := dropTurn s) hbusy hillegal]

end EngineStep

/-- Settles O3: with bits 31:8 zero the word is its low byte, which is the opcode of at most one command. -/
theorem engineDecodesTheWord : Obligations.EngineDecodesTheWord := by
  rintro s w hbusy hnext rfl
  refine ⟨fun hhigh => step_of_illegal hbusy hnext (decode_ne_ok_of_highBits hhigh), fun hhigh => ?_⟩
  have runs (i : Instr) (hlow : s.curCmd.toNat % 256 = (opcode i).toNat) : step s = exec i (dropTurn s) :=
    step_of_decode_ok hbusy hnext (decode_eq_ok_of_lowByte hhigh hlow)
  exact ⟨runs .encrypt, runs .decrypt, runs .genenc, runs .decryptk, runs .embed, runs .extract,
    fun hlow => step_of_illegal hbusy hnext (decode_ne_ok_of_lowByte hlow)⟩

/-- Settles O5: neither kind of illegal word is a command's, and each low byte from 1 to 6 is some command's opcode. -/
theorem illegalWordFails : Obligations.IllegalWordFails := by
  intro s hbusy hnext
  refine ⟨fun hhigh => step_of_illegal hbusy hnext (decode_ne_ok_of_highBits hhigh),
    fun hlow => step_of_illegal hbusy hnext (decode_ne_ok_of_lowByte hlow), fun hhigh h1 h6 => ?_⟩
  obtain ⟨i, hopc⟩ := exists_opcode_toNat_eq h1 h6
  have hdec : decode s.curCmd = .ok i := decode_eq_ok_of_lowByte hhigh hopc.symm
  exact ⟨i, hdec, step_of_decode_ok hbusy hnext hdec⟩

/-- Settles O1: each of the six words is `encode` of its command. -/
theorem opcodeWordsDecode : Obligations.OpcodeWordsDecode := fun w =>
  ⟨decode_eq_ok_iff w .encrypt, decode_eq_ok_iff w .decrypt, decode_eq_ok_iff w .genenc,
    decode_eq_ok_iff w .decryptk, decode_eq_ok_iff w .embed, decode_eq_ok_iff w .extract⟩

end Sys2Proof.Machine
end

section
/-! PROOFS. What `inc32` does to the number a block spells, and `charCount` one byte at a time. -/

namespace Sys2Proof.Machine

/-- `inc32` keeps the quotient by `2^32` (bytes 0..11) and advances the remainder (bytes 12..15) with wrap (R172). -/
theorem inc32_toNat (B : Block) :
    (inc32 B).toNat = 2 ^ 32 * (B.toNat / 2 ^ 32) + (B.toNat % 2 ^ 32 + 1) % 2 ^ 32 := by
  have hupper : (B.extractLsb' 32 96).toNat = B.toNat / 2 ^ 32 := by
    rw [BitVec.extractLsb'_toNat, Nat.shiftRight_eq_div_pow]
    omega
  have hcounter : (B.extractLsb' 0 32 + 1#32).toNat = (B.toNat % 2 ^ 32 + 1) % 2 ^ 32 := by
    rw [BitVec.toNat_add, BitVec.extractLsb'_toNat, Nat.shiftRight_zero]
    rfl
  rw [inc32, BitVec.toNat_append, ← Nat.shiftLeft_add_eq_or_of_lt (BitVec.isLt _), Nat.shiftLeft_eq, hupper,
    hcounter, Nat.mul_comm]

/-- Settles O40: `inc32_toNat` gives the block's number as a quotient and a remainder below `2^32`. -/
theorem incrementTouchesTheCounterOnly : Obligations.IncrementTouchesTheCounterOnly := by
  intro B
  rw [inc32_toNat]
  constructor <;> omega

theorem charCount_nil (u : LenUnit) : charCount u [] = 0 := by
  cases u <;> rfl

theorem charCount_bytes_cons (b : Byte) (s : List Byte) : charCount .bytes (b :: s) = charCount .bytes s + 1 := rfl

/-- A byte starts a code point unless it is a continuation byte (R181). -/
theorem charCount_codepoints_cons (b : Byte) (s : List Byte) :
    charCount .codepoints (b :: s) = charCount .codepoints s + (if b &&& 0xC0#8 = 0x80#8 then 0 else 1) := by
  simp only [charCount, codepointCount, List.countP_cons, bne_iff_ne, ne_eq, ite_not]

/-- A UTF-16 code unit per code point, and a second one where a four-byte sequence starts (R181). -/
theorem charCount_utf16units_cons (b : Byte) (s : List Byte) :
    charCount .utf16units (b :: s) =
      charCount .utf16units s + (if b &&& 0xC0#8 = 0x80#8 then 0 else 1) + (if 0xF0 ≤ b.toNat then 1 else 0) := by
  have hcodepoints := charCount_codepoints_cons b s
  simp only [charCount, List.countP_cons, decide_eq_true_eq] at hcodepoints ⊢
  omega

theorem secretOK_iff (u : LenUnit) (s : List Byte) : secretOK u s = true ↔ 32 ≤ charCount u s := decide_eq_true_iff

/-- Settles O53: one equation per unit for a byte in front, and `secretOK` compares the count with R6's minimum. -/
theorem characterCount : Obligations.CharacterCount :=
  ⟨charCount_nil,
    fun b s => ⟨charCount_bytes_cons b s, charCount_codepoints_cons b s, charCount_utf16units_cons b s⟩,
    rfl, secretOK_iff⟩

end Sys2Proof.Machine
end

section
/-! PROOFS. The cipher commands step by step (41_cipher_commands.md R200 to R203): an equation per branch of each rule, and
what `exec` makes of a verdict. -/

namespace Sys2Proof.Machine

/-! ### From the verdict to the command's outcome -/

section Outcome
variable {i : Instr} {s : State}

/-- A rule that answers an error makes the command fail with its code (R271). -/
theorem exec_failedWith {e : Error} (hv : verdictOf i s = .error e) :
    ∃ t, exec i s = .next t ∧ FailedWith (errorCode e) s t := by
  refine ⟨_, exec_eq_complete i s, ?_⟩
  rw [hv]
  exact failedWith_completeFail s e

/-- A rule that answers an effect makes the command succeed with it, inside its output ranges (R91, R270). -/
theorem exec_succeededWith {f : Effect} (hwf : memWf s.mem = true) (hv : verdictOf i s = .ok f) :
    ∃ t, exec i s = .next t ∧ SucceededWith f.outLen f.drawn (outputRanges i s) s t ∧
      t.mem = memWriteAll s.mem f.writes := by
  obtain ⟨hwrites, -, hlen⟩ := verdict_writes hv
  refine ⟨completeOk s f, by rw [exec_eq_complete, hv, complete_ok], ?_, rfl⟩
  refine { status := rfl, outLen := ?_, draws := rfl, frame := ?_, rest := restUnchanged_complete s (.ok f) }
  · rw [completeOk_outLen, BitVec.toNat_ofNat, Nat.mod_eq_of_lt hlen]
  · intro a hout
    refine readByte_memWriteAll_outside hwf fun w hw => ?_
    obtain ⟨r, hr, hbase, hwlen, -⟩ := hwrites w hw
    rw [hbase, hwlen]
    exact hout r hr

end Outcome

/-- Reading back a whole write whose length is known. -/
theorem memRead_memWrite_of_length {m : Memory} {a n : Nat} {bs : List Byte} (hwf : memWf m = true)
    (hlen : bs.length = n) : memRead (memWrite m a bs) a n = bs :=
  hlen ▸ memRead_memWrite_same hwf

/-- A sealed input is 28 bytes longer than it (R130). -/
theorem sealEnvelope_source_length (s : State) (K : List Byte) (skip : Nat) :
    (sealEnvelope K (drawBytes s skip 12) (readRange s (srcRange s))).length = 28 + opNat s .srcLen := by
  rw [sealEnvelope_length _ _ _ (drawBytes_length s skip 12), readRange_length, srcRange]

/-! ### One equation per branch of the rules -/

section Branches
variable {s : State}

theorem gateShut_eq_true (hen : s.gate.en = true) (hver : s.gate.verified = false) : gateShut s = true := by
  simp [gateShut, hen, hver]

theorem gateShut_eq_false (h : s.gate.en = false ∨ s.gate.verified = true) : gateShut s = false := by
  simpa [gateShut, Classical.or_iff_not_imp_left] using h

theorem encryptVerdict_of_badRange (hr : ¬ encryptRangeOK s) : encryptVerdict s = .error .badOperand := if_pos hr

theorem encryptVerdict_of_shortSecret (hr : encryptRangeOK s)
    (hs : secretOK s.params.secretLenUnit (readRange s (secRange s)) = false) :
    encryptVerdict s = .error .invalidSecret := by
  rw [encryptVerdict, if_neg (not_not_intro hr), if_pos (by simp [hs])]

theorem genencVerdict_of_badRange (hr : ¬ genencRangeOK s) : genencVerdict s = .error .badOperand := if_pos hr

theorem decryptVerdict_of_gateShut (hg : gateShut s = true) : decryptVerdict s = .error .accessDenied := if_pos hg

theorem decryptVerdict_of_badRange (hg : gateShut s = false) (hr : ¬ decryptRangeOK s) :
    decryptVerdict s = .error .badOperand := by
  rw [decryptVerdict, if_neg (by simp [hg]), if_pos hr]

theorem decryptVerdict_of_shortSecret (hg : gateShut s = false) (hr : decryptRangeOK s)
    (hs : secretOK s.params.secretLenUnit (readRange s (secRange s)) = false) :
    decryptVerdict s = .error .invalidSecret := by
  rw [decryptVerdict, if_neg (by simp [hg]), if_neg (not_not_intro hr), if_pos (by simp [hs])]

/-- Past the gate, the ranges and the secret, the length decides between MalformedEnvelope and opening (R201). -/
theorem decryptVerdict_of_checked (hg : gateShut s = false) (hr : decryptRangeOK s)
    (hs : secretOK s.params.secretLenUnit (readRange s (secRange s)) = true) :
    decryptVerdict s =
      if opNat s .srcLen < 28 then .error .malformedEnvelope else openVerdict s (secretKey s) := by
  rw [decryptVerdict, if_neg (by simp [hg]), if_neg (not_not_intro hr), if_neg (not_not_intro hs)]

theorem decryptkVerdict_of_gateShut (hg : gateShut s = true) : decryptkVerdict s = .error .accessDenied := if_pos hg

theorem decryptkVerdict_of_badOperand (hg : gateShut s = false) (hr : opNat s .secLen ≠ 32 ∨ ¬ decryptRangeOK s) :
    decryptkVerdict s = .error .badOperand := by
  rw [decryptkVerdict, if_neg (by simp [hg]), if_pos hr]

/-- Past the gate, the key length and the ranges, the length decides between MalformedEnvelope and opening (R203). -/
theorem decryptkVerdict_of_checked (hg : gateShut s = false) (hk : opNat s .secLen = 32) (hr : decryptRangeOK s) :
    decryptkVerdict s =
      if opNat s .srcLen < 28 then .error .malformedEnvelope
      else openVerdict s (memRead s.mem (opNat s .secAddr) 32) := by
  rw [decryptkVerdict, if_neg (by simp [hg]), if_neg (not_or.2 ⟨not_not_intro hk, not_not_intro hr⟩)]

end Branches

/-! ### The last steps of DECRYPT and DECRYPTK -/

section Opening
variable {i : Instr} {s : State} {K : List Byte}

/-- What authenticating the input under `K` gives, its parts named by their addresses (R131, R201, R203). -/
def openedSource (s : State) (K : List Byte) : Option (List Byte) :=
  gcmAD K (memRead s.mem (opNat s .srcAddr) 12) (memRead s.mem (opNat s .srcAddr + 28) (opNat s .srcLen - 28))
    (memRead s.mem (opNat s .srcAddr + 12) 16)

theorem openEnvelope_source (hlen : 28 ≤ opNat s .srcLen) :
    openEnvelope K (readRange s (srcRange s)) = openedSource s K :=
  openEnvelope_memRead K s.mem _ _ hlen

/-- A tag that does not verify ends with AuthenticationFailed. -/
theorem exec_failedWith_of_badTag (hv : verdictOf i s = openVerdict s K) (hlen : 28 ≤ opNat s .srcLen)
    (hopen : openedSource s K = none) : ∃ t, exec i s = .next t ∧ FailedWith 0x02 s t := by
  have herr : openVerdict s K = .error .authenticationFailed := by
    rw [openVerdict, openEnvelope_source hlen, hopen]
  exact exec_failedWith (hv.trans herr)

/-- A tag that verifies ends with the plaintext at DST_ADDR. -/
theorem exec_succeededWith_of_opened {p : List Byte} (hwf : memWf s.mem = true)
    (hout : outputRanges i s = [openedRange s]) (hv : verdictOf i s = openVerdict s K)
    (hlen : 28 ≤ opNat s .srcLen) (hopen : openedSource s K = some p) :
    ∃ t, exec i s = .next t ∧ SucceededWith (opNat s .srcLen - 28) 0 [openedRange s] s t ∧
      memRead t.mem (opNat s .dstAddr) (opNat s .srcLen - 28) = p := by
  have henv := (openEnvelope_source hlen).trans hopen
  have hplen : p.length = opNat s .srcLen - 28 := by rw [openEnvelope_length henv, readRange_length, srcRange]
  obtain ⟨t, hexec, hsucc, hmem⟩ := exec_succeededWith hwf (hv.trans (openVerdict_ok_iff.2 ⟨p, henv, rfl⟩))
  refine ⟨t, hexec, hout ▸ hsucc, ?_⟩
  rw [hmem, memWriteAll_cons, memWriteAll_nil]
  exact memRead_memWrite_of_length hwf hplen

end Opening

/-! ### The statements -/

/-- Settles O17: each branch of ENCRYPT's rule, and the one write read back. -/
theorem encryptFollowsItsRule : Obligations.EncryptFollowsItsRule := by
  intro s
  refine ⟨fun hr => exec_failedWith (i := .encrypt) (encryptVerdict_of_badRange hr),
    fun hr hs => exec_failedWith (i := .encrypt) (encryptVerdict_of_shortSecret hr hs),
    fun hwf hsrc hsec hdst hout hdsrc hdsec hs => ?_⟩
  have hr : encryptRangeOK s := ⟨hsrc, hsec, hdst, hout, hdsrc, hdsec⟩
  obtain ⟨t, hexec, hsucc, hmem⟩ :=
    exec_succeededWith (i := .encrypt) hwf (encryptVerdict_ok_iff.2 ⟨hr, hs, rfl⟩)
  refine ⟨t, hexec, hsucc, ?_⟩
  rw [hmem, memWriteAll_cons, memWriteAll_nil]
  exact memRead_memWrite_of_length hwf (sealEnvelope_source_length s _ 0)

/-- Settles O18: each branch of DECRYPT's rule; the last two are the opening under the derived key. -/
theorem decryptFollowsItsRule : Obligations.DecryptFollowsItsRule := by
  intro s
  refine ⟨fun hen hver => exec_failedWith (i := .decrypt) (decryptVerdict_of_gateShut (gateShut_eq_true hen hver)),
    fun hgate => ?_⟩
  have hg := gateShut_eq_false hgate
  refine ⟨fun hr => exec_failedWith (i := .decrypt) (decryptVerdict_of_badRange hg hr),
    fun hr hs => exec_failedWith (i := .decrypt) (decryptVerdict_of_shortSecret hg hr hs),
    fun hr hs hlen => exec_failedWith (i := .decrypt) ((decryptVerdict_of_checked hg hr hs).trans (if_pos hlen)),
    fun hr hs hlen hopen => ?_, fun p hwf hsrc hsec hdst hdsrc hdsec hs hlen hopen => ?_⟩
  · have hv := (decryptVerdict_of_checked hg hr hs).trans (if_neg (Nat.not_lt.2 hlen))
    exact exec_failedWith_of_badTag (i := .decrypt) hv hlen hopen
  · have hr : decryptRangeOK s := ⟨hsrc, hsec, hdst, hdsrc, hdsec⟩
    have hv := (decryptVerdict_of_checked hg hr hs).trans (if_neg (Nat.not_lt.2 hlen))
    exact exec_succeededWith_of_opened (i := .decrypt) hwf rfl hv hlen hopen

/-- Settles O19: both branches of GENENC's rule; the key write leaves the envelope, whose range is disjoint from it. -/
theorem genencFollowsItsRule : Obligations.GenencFollowsItsRule := by
  intro s
  refine ⟨fun hr => exec_failedWith (i := .genenc) (genencVerdict_of_badRange hr),
    fun hwf hsrc hdst hkey hout hdsrc hksrc hdkey => ?_⟩
  have hr : genencRangeOK s := ⟨hsrc, hdst, hkey, hout, hdsrc, hksrc, hdkey⟩
  obtain ⟨t, hexec, hsucc, hmem⟩ := exec_succeededWith (i := .genenc) hwf (genencVerdict_ok_iff.2 ⟨hr, rfl⟩)
  refine ⟨t, hexec, hsucc, ?_⟩
  rw [hmem, memWriteAll_cons, memWriteAll_cons, memWriteAll_nil]
  constructor
  · exact memRead_memWrite_of_length (memWrite_wf hwf) (drawBytes_length s 0 32)
  · rw [memRead_memWrite_other (memWrite_wf hwf) (by rwa [drawBytes_length])]
    exact memRead_memWrite_of_length hwf (sealEnvelope_source_length s _ 32)

/-- Settles O20: each branch of DECRYPTK's rule; the last two are the opening under the 32 bytes at SEC_ADDR. -/
theorem decryptkFollowsItsRule : Obligations.DecryptkFollowsItsRule := by
  intro s
  refine ⟨fun hen hver => exec_failedWith (i := .decryptk) (decryptkVerdict_of_gateShut (gateShut_eq_true hen hver)),
    fun hgate => ?_⟩
  have hg := gateShut_eq_false hgate
  refine ⟨fun hr => exec_failedWith (i := .decryptk) (decryptkVerdict_of_badOperand hg hr),
    fun hk hr hlen => exec_failedWith (i := .decryptk) ((decryptkVerdict_of_checked hg hk hr).trans (if_pos hlen)),
    fun hk hr hlen hopen => ?_, fun p hwf hk hsrc hsec hdst hdsrc hdsec hlen hopen => ?_⟩
  · have hv := (decryptkVerdict_of_checked hg hk hr).trans (if_neg (Nat.not_lt.2 hlen))
    exact exec_failedWith_of_badTag (i := .decryptk) hv hlen hopen
  · have hr : decryptRangeOK s := by
      rw [decryptRangeOK, secRange, hk]
      exact ⟨hsrc, hsec, hdst, hdsrc, hdsec⟩
    have hv := (decryptkVerdict_of_checked hg hk hr).trans (if_neg (Nat.not_lt.2 hlen))
    exact exec_succeededWith_of_opened (i := .decryptk) hwf rfl hv hlen hopen

end Sys2Proof.Machine
end

section
/-! PROOFS. Bit packing, framing and bit-plane indexing (42_bitpack_framing.md R220 to R225): whole bytes of bits are the
bits of a byte string, so what a byte string satisfies holds of them. -/

namespace Sys2Proof.Machine

/-! ### Bits and Bytes -/

theorem byteBits_getElem? (b : Byte) {j : Nat} (hj : j ≤ 7) : (byteBits b)[j]? = some (b.getLsbD (7 - j)) := by
  simp [byteBits, List.getElem?_range (show j < 8 by omega)]

/-- Bit `8k + j` of `Bits(s)` is bit `7 - j` of byte `k` (R220). -/
theorem bits_getElem? {s : List Byte} {k j : Nat} {b : Byte} (hb : s[k]? = some b) (hj : j ≤ 7) :
    (bits s)[8 * k + j]? = some (b.getLsbD (7 - j)) := by
  induction s generalizing k with
  | nil => simp at hb
  | cons c s ih =>
    rw [bits_cons]
    cases k with
    | zero =>
      obtain rfl : c = b := by simpa using hb
      rw [List.getElem?_append_left (by simp; omega), Nat.mul_zero, Nat.zero_add, byteBits_getElem? c hj]
    | succ k =>
      have hindex : 8 * (k + 1) + j - (byteBits c).length = 8 * k + j := by simp; omega
      rw [List.getElem?_append_right (by simp; omega), hindex]
      exact ih (by simpa using hb)

/-- `Bytes(Bits(s)) = s` (R221). -/
@[simp] theorem bytes_bits (s : List Byte) : bytes (bits s) = s := by
  induction s with
  | nil => rfl
  | cons b s ih => rw [bits_cons, bytes_byteBits_append, ih]

theorem exists_byteBits_eq : ∀ {b : List Bool}, b.length = 8 → ∃ c : Byte, byteBits c = b
  | [_, _, _, _, _, _, _, _], _ => ⟨_, byteBits_byteOfBits ..⟩

/-- A bit sequence of whole bytes is the bits of a byte string (R221). -/
theorem exists_bits_eq {b : List Bool} {n : Nat} (hlen : b.length = 8 * n) :
    ∃ s : List Byte, s.length = n ∧ bits s = b := by
  induction n generalizing b with
  | zero => exact ⟨[], rfl, (List.length_eq_zero_iff.1 hlen).symm⟩
  | succ n ih =>
    obtain ⟨c, hc⟩ := exists_byteBits_eq (b := b.take 8) (by simp; omega)
    obtain ⟨s, hs, hbits⟩ := ih (b := b.drop 8) (by simp; omega)
    exact ⟨c :: s, by simp [hs], by rw [bits_cons, hc, hbits, List.take_append_drop]⟩

/-- A byte is the sum of its eight bits, the first the heaviest (R221). -/
theorem toNat_eq_sum_bits (b : Byte) :
    b.toNat = ((List.range 8).map fun j => (b.getLsbD (7 - j)).toNat * 2 ^ (7 - j)).sum := by
  revert b
  decide +kernel

/-- Byte `k` as the sum of the bits of `Bits(s)` at `8k` to `8k + 7` (R221). -/
theorem toNat_getD_eq_sum_bits {s : List Byte} {k : Nat} (hk : k < s.length) :
    (s.getD k 0).toNat = ((List.range 8).map fun j => ((bits s).getD (8 * k + j) false).toNat * 2 ^ (7 - j)).sum := by
  rw [List.getD_eq_getElem _ _ hk, toNat_eq_sum_bits]
  refine congrArg List.sum (List.map_congr_left fun j hj => ?_)
  have hj7 : j ≤ 7 := Nat.le_of_lt_succ (List.mem_range.1 hj)
  rw [List.getD_eq_getElem?_getD, bits_getElem? (List.getElem?_eq_getElem hk) hj7, Option.getD_some]

/-- Settles O28: a sequence of whole bytes is `bits s` for some `s`, which `bytes` gives back. -/
theorem bitsAndBytesAreInverse : Obligations.BitsAndBytesAreInverse := by
  refine ⟨bits_length, fun s k j b => bits_getElem?, fun b n hlen => ?_, bytes_bits, fun b n hlen => ?_⟩
  · obtain ⟨s, rfl, rfl⟩ := exists_bits_eq hlen
    rw [bytes_bits]
    exact ⟨rfl, fun k => toNat_getD_eq_sum_bits⟩
  · obtain ⟨s, -, rfl⟩ := exists_bits_eq hlen
    rw [bytes_bits]

/-! ### Embedding -/

theorem setLowBit_eq (b : Byte) (v : Bool) : setLowBit b v = (b &&& 0xFE#8) ||| (if v then 1#8 else 0#8) := by
  cases v <;> rfl

theorem embedBits_getElem? (px : List Byte) (bs : List Bool) (o : Nat) :
    (embedBits px bs)[o]? = px[o]?.map (embedByte bs o) := List.getElem?_mapIdx

/-- Settles O30: each byte goes through `embedByte`, which sets bit 0 at a used offset and is the identity elsewhere. -/
theorem embedBitsByteByByte : Obligations.EmbedBitsByteByByte := by
  intro px bs
  refine ⟨embedBits_length px bs, fun i v old hv hold => ?_, fun o hunused => ?_⟩
  · obtain ⟨hi, rfl⟩ := List.getElem?_eq_some_iff.1 hv
    rw [embedBits_getElem?, hold, Option.map_some, embedByte_off old hi, setLowBit_eq]
  · have hid : embedByte bs o = id := funext fun old => embedByte_unused old hunused
    rw [embedBits_getElem?, hid, Option.map_id_fun, id]

/-! ### The subchannel index -/

theorem subchannelToBitIndex_of_lt {p c : Nat} (hc : c < 3) : subchannelToBitIndex p c = some (3 * p + c) := if_pos hc

theorem subchannelToBitIndex_bitIndexToSubchannel (i : Nat) :
    subchannelToBitIndex (bitIndexToSubchannel i).1 (bitIndexToSubchannel i).2 = some i := by
  rw [bitIndexToSubchannel, subchannelToBitIndex_of_lt (Nat.mod_lt i (by decide)), Nat.div_add_mod]

theorem bitIndexToSubchannel_of_lt {p c : Nat} (hc : c < 3) : bitIndexToSubchannel (3 * p + c) = (p, c) := by
  rw [bitIndexToSubchannel, Prod.mk.injEq]
  omega

theorem off_strictMono : StrictMono off := by
  intro i j hij
  rw [off_eq, off_eq]
  omega

theorem off_mod_four_ne_three (i : Nat) : off i % 4 ≠ 3 := by
  rw [off_eq]
  omega

/-- Settles O29: division by 3 with remainder, and a channel below 3 in each group of four bytes. -/
theorem subchannelIndexIsABijection : Obligations.SubchannelIndexIsABijection :=
  ⟨fun _ => rfl, subchannelToBitIndex_bitIndexToSubchannel,
    fun p c hc => ⟨3 * p + c, subchannelToBitIndex_of_lt hc, bitIndexToSubchannel_of_lt hc⟩,
    fun _ => rfl, fun _ _ hij => off_strictMono hij, fun i => ⟨off_eq i, off_mod_four_ne_three i⟩⟩

/-! ### Framing -/

theorem take_four_frame (p : List Byte) : (frame p).take 4 = be32 p.length := rfl

theorem totalBits_eq (p : List Byte) : totalBits p.length = 8 * (frame p).length := by
  rw [totalBits, frame_length]
  omega

/-- Settles O33: the prefix is `be32` of the length, which `unbe32` reads back. -/
theorem frameIsPrefixAndPayload : Obligations.FrameIsPrefixAndPayload := by
  intro p hlen
  refine ⟨rfl, ?_, frame_length p, totalBits_eq p, rfl⟩
  rw [take_four_frame, unbe32_be32 hlen]

end Sys2Proof.Machine
end

section
/-! PROOFS. The stego command EXTRACT step by step (43_stego_commands.md R241): an equation per branch of its rule. -/

namespace Sys2Proof.Machine

section Extract
variable {s : State}

theorem opNat_eq_zero_iff {r : Reg} : opNat s r = 0 ↔ s.reg r = 0 := BitVec.toNat_eq (y := 0).symm

/-! ### One equation per branch of the rule -/

theorem extractVerdict_of_gateShut (hg : gateShut s = true) : extractVerdict s = .error .accessDenied := if_pos hg

theorem extractVerdict_of_format (hg : gateShut s = false) (hf : opNat s .imgFmt ≠ 0) :
    extractVerdict s = .error .unsupportedImageFormat := by
  rw [extractVerdict, if_neg (by simp [hg]), if_pos (mt opNat_eq_zero_iff.2 hf)]

/-- Past the gate and the format, an image out of MEM ends the command before its prefix is read (R241). -/
theorem extractVerdict_of_badImage (hg : gateShut s = false) (hf : opNat s .imgFmt = 0)
    (hi : ¬ rangeValid s (imgRange s)) : extractVerdict s = .error .badOperand := by
  rw [extractVerdict, if_neg (by simp [hg]), if_neg (not_not_intro (opNat_eq_zero_iff.1 hf)), if_pos hi]

/-- A capacity below 32 bits and a prefix beyond capacity fail alike, and the first is a case of the second (R241). -/
theorem extractVerdict_of_badPrefix (hg : gateShut s = false) (hf : opNat s .imgFmt = 0)
    (hi : rangeValid s (imgRange s)) (hcap : imgCapacity s < totalBits (extractLen s)) :
    extractVerdict s = .error .invalidStegoPayload := by
  rw [extractVerdict, if_neg (by simp [hg]), if_neg (not_not_intro (opNat_eq_zero_iff.1 hf)),
    if_neg (not_not_intro hi), if_pos hcap, ite_self]

theorem extractVerdict_of_badDestination (hg : gateShut s = false) (hf : opNat s .imgFmt = 0)
    (hi : rangeValid s (imgRange s)) (hcap : totalBits (extractLen s) ≤ imgCapacity s)
    (hd : ¬ extractDstOK s (extractLen s)) : extractVerdict s = .error .badOperand := by
  have h32 : 32 ≤ imgCapacity s := (Nat.le_add_right 32 _).trans hcap
  rw [extractVerdict, if_neg (by simp [hg]), if_neg (not_not_intro (opNat_eq_zero_iff.1 hf)),
    if_neg (not_not_intro hi), if_neg (Nat.not_lt.2 h32), if_neg (Nat.not_lt.2 hcap), if_pos hd]

/-! ### Success -/

/-- EXTRACT's output range once its prefix is defined (R90, R227). -/
theorem outputRanges_extract (hi : rangeValid s (imgRange s)) (h32 : 32 ≤ imgCapacity s) :
    outputRanges .extract s = [extractedRange s (extractLen s)] := if_pos ⟨hi, h32⟩

/-- Past every check, EXTRACT succeeds and the payload stands at DST_ADDR (R241 step 6). -/
theorem exec_extract_succeededWith (hwf : memWf s.mem = true) (hg : gateShut s = false) (hf : opNat s .imgFmt = 0)
    (hi : rangeValid s (imgRange s)) (hcap : totalBits (extractLen s) ≤ imgCapacity s)
    (hd : extractDstOK s (extractLen s)) :
    ∃ t, exec .extract s = .next t ∧ SucceededWith (extractLen s) 0 [extractedRange s (extractLen s)] s t ∧
      memRead t.mem (opNat s .dstAddr) (extractLen s) = payloadOf (readRange s (imgRange s)) (extractLen s) := by
  have h32 : 32 ≤ imgCapacity s := (Nat.le_add_right 32 _).trans hcap
  obtain ⟨t, hexec, hsucc, hmem⟩ := exec_succeededWith (i := .extract) hwf
    (extractVerdict_ok_iff.2 ⟨hg, opNat_eq_zero_iff.1 hf, hi, h32, hcap, hd, rfl⟩)
  refine ⟨t, hexec, outputRanges_extract hi h32 ▸ hsucc, ?_⟩
  rw [hmem, memWriteAll_cons, memWriteAll_nil]
  exact memRead_memWrite_of_length hwf (payloadOf_length _ _)

end Extract

/-- Settles O25: each branch of EXTRACT's rule; the statement's `N` is `extractLen s`. -/
theorem extractFollowsItsRule : Obligations.ExtractFollowsItsRule := by
  intro s px n hpx hn
  obtain rfl : n = extractLen s := by rw [hn, hpx]; rfl
  subst hpx
  refine ⟨fun hen hver => exec_failedWith (i := .extract) (extractVerdict_of_gateShut (gateShut_eq_true hen hver)),
    fun hgate => ?_⟩
  have hg := gateShut_eq_false hgate
  refine ⟨fun hf => exec_failedWith (i := .extract) (extractVerdict_of_format hg hf),
    fun hf hi => exec_failedWith (i := .extract) (extractVerdict_of_badImage hg hf hi),
    fun hf hi hsmall => ?_,
    fun hf hi _ hcap => exec_failedWith (i := .extract) (extractVerdict_of_badPrefix hg hf hi hcap),
    fun hf hi hcap hd => exec_failedWith (i := .extract) (extractVerdict_of_badDestination hg hf hi hcap hd),
    fun hwf hf hi hcap hdst hdisj => exec_extract_succeededWith hwf hg hf hi hcap ⟨hdst, hdisj⟩⟩
  have hcap : imgCapacity s < totalBits (extractLen s) := Nat.lt_add_right _ hsmall
  exact exec_failedWith (i := .extract) (extractVerdict_of_badPrefix hg hf hi hcap)

end Sys2Proof.Machine
end

section
/-! PROOFS. What a failing command leaves (60_exceptions.md R271), and the gate, which a gated command's rule reads and no
command writes (60_exceptions.md R275). -/

namespace Sys2Proof.Machine

section Failures
variable {i : Instr} {s t : State}

/-- An ERR other than 0 comes from `fail E` alone (R270, R271). -/
theorem failedWith_of_err_ne_zero (hexec : exec i s = .next t) (herr : t.status.err ≠ 0) :
    FailedWith t.status.err s t := by
  obtain rfl := exec_next_iff.1 hexec
  cases hv : verdictOf i s with
  | ok f => exact absurd (by rw [hv]; rfl) herr
  | error e => exact failedWith_completeFail s e

/-- Only ENCRYPT and GENENC draw (R200, R202). -/
theorem drawn_eq_zero_of_verdict_ok {f : Effect} (hv : verdictOf i s = .ok f) (henc : i ≠ .encrypt)
    (hgen : i ≠ .genenc) : f.drawn = 0 := by
  cases i with
  | encrypt => exact absurd rfl henc
  | genenc => exact absurd rfl hgen
  | decrypt =>
    obtain ⟨-, -, -, -, p, -, rfl⟩ := decryptVerdict_ok_iff.1 hv
    rfl
  | decryptk =>
    obtain ⟨-, -, -, -, p, -, rfl⟩ := decryptkVerdict_ok_iff.1 hv
    rfl
  | embed =>
    obtain ⟨-, -, -, rfl⟩ := embedVerdict_ok_iff.1 hv
    rfl
  | extract =>
    obtain ⟨-, -, -, -, -, -, rfl⟩ := extractVerdict_ok_iff.1 hv
    rfl

theorem entropyPos_of_exec_of_no_draw (hexec : exec i s = .next t) (henc : i ≠ .encrypt) (hgen : i ≠ .genenc) :
    t.entropyPos = s.entropyPos := by
  obtain rfl := exec_next_iff.1 hexec
  cases hv : verdictOf i s with
  | ok f => rw [complete_ok, completeOk_entropyPos, drawn_eq_zero_of_verdict_ok hv henc hgen, Nat.add_zero]
  | error e => rfl

end Failures

/-- Settles O14: an ERR other than 0 means `fail E`, and an effect that draws is ENCRYPT's or GENENC's. -/
theorem failuresAreClean : Obligations.FailuresAreClean := by
  intro i s t hexec
  refine ⟨fun herr => ?_, entropyPos_of_exec_of_no_draw hexec⟩
  have hfail := failedWith_of_err_ne_zero hexec herr
  exact ⟨hfail.mem, hfail.draws, hfail.outLen⟩

/-- The completion step carries GATE along unread (R270). -/
theorem complete_setGate (s : State) (g : Gate) (v : Verdict) :
    complete { s with gate := g } v = { complete s v with gate := g } := by
  cases v <;> rfl

/-- A command that reads the same of two gates runs the same under both (R31, R275). -/
theorem exec_setGate {i : Instr} {s : State} {g : Gate}
    (hgate : gated i = true → gateShut s = gateShut { s with gate := g }) :
    exec i { s with gate := g } = .next { complete s (verdictOf i s) with gate := g } := by
  have hin : SameInputs i s { s with gate := g } := ⟨fun _ _ => rfl, hgate, rfl, rfl, rfl⟩
  rw [exec_eq_complete, ← hin.verdictOf_eq, complete_setGate]

/-- Settles O16: a shut gate is the first check of the three gated commands; past it, a change of gate that leaves it
open, or that the command does not read, leaves the command's inputs the same. -/
theorem gateGuardsDecoding : Obligations.GateGuardsDecoding := by
  refine ⟨fun s hen hver => ?_, fun i s g hcase => ?_, fun i s t hexec => ?_⟩
  · have hshut := gateShut_eq_true hen hver
    exact ⟨exec_failedWith (i := .decrypt) (decryptVerdict_of_gateShut hshut),
      exec_failedWith (i := .decryptk) (decryptkVerdict_of_gateShut hshut),
      exec_failedWith (i := .extract) (extractVerdict_of_gateShut hshut)⟩
  · refine ⟨_, exec_eq_complete i s, exec_setGate ?_⟩
    obtain rfl | rfl | rfl | ⟨hs, hg⟩ := hcase
    · exact nofun
    · exact nofun
    · exact nofun
    · exact fun _ => (gateShut_eq_false hs).trans (gateShut_eq_false hg).symm
  · obtain rfl := exec_next_iff.1 hexec
    exact complete_gate s _

end Sys2Proof.Machine
end

section
/-! PROOFS. The interrupt line (60_exceptions.md R276): when it is high, and what clears it. -/

namespace Sys2Proof.Machine

section InterruptLine
variable {s : State}

theorem irq_eq_true_iff : irq s = true ↔
    (s.ctrl.ieDone = true ∧ s.status.done = true) ∨ (s.ctrl.ieErr = true ∧ s.status.err ≠ 0) := by
  simp only [irq, Bool.or_eq_true, Bool.and_eq_true, bne_iff_ne]

theorem irq_eq_false_of_disabled (hdone : s.ctrl.ieDone = false) (herr : s.ctrl.ieErr = false) : irq s = false := by
  simp only [irq, hdone, herr, Bool.false_and, Bool.or_false]

/-- With DONE and ERR clear the line is low whatever CTRL holds. -/
theorem irq_eq_false_of_status_clear (hdone : s.status.done = false) (herr : s.status.err = 0) : irq s = false := by
  rw [Bool.eq_false_iff, ne_eq, irq_eq_true_iff, hdone, herr]
  simp

theorem hostTurn_sampleIrq (s : State) : hostTurn .sampleIrq s = .next (answer s (.line (irq s))) := rfl

theorem hostTurn_sampleIrq_of_status_clear (hdone : s.status.done = false) (herr : s.status.err = 0) :
    hostTurn .sampleIrq s = .next (answer s (.line false)) := by
  rw [hostTurn_sampleIrq, irq_eq_false_of_status_clear hdone herr]

theorem regAt_status : regAt 0x04 = some .status := rfl

/-- `ack` (R138): STATUS written with bit 1 set while BUSY = 0. -/
theorem hostTurn_wr_status_ack (hidle : s.status.busy = false) {w : Word} (hbit : w.getLsbD 1 = true) :
    hostTurn (.wr 0x04 w) s = .next (acknowledge s) := by
  rw [hostTurn_wr regAt_status, writeReg_idle hidle, writeRegIdle, if_pos hbit]

/-- Every word written to CMD while BUSY = 0 is accepted (R46). -/
theorem hostTurn_wr_cmd_idle (hidle : s.status.busy = false) (w : Word) :
    hostTurn (.wr 0x00 w) s = .next (acceptCommand s w) := by
  rw [hostTurn_wr regAt_cmd, writeReg_idle hidle, writeRegIdle]

end InterruptLine

/-- Settles O48: sampling answers `irq`, and both `ack` and an accepted command clear DONE and ERR. -/
theorem interruptLine : Obligations.InterruptLine := by
  refine fun s => ⟨⟨irq s, hostTurn_sampleIrq s, irq_eq_true_iff, irq_eq_false_of_disabled⟩, fun hidle w => ⟨?_, ?_⟩⟩
  · exact fun hbit => ⟨acknowledge s, hostTurn_wr_status_ack hidle hbit, hostTurn_sampleIrq_of_status_clear rfl rfl⟩
  · exact ⟨acceptCommand s w, hostTurn_wr_cmd_idle hidle w, hostTurn_sampleIrq_of_status_clear rfl rfl⟩

end Sys2Proof.Machine
end

section
/-! PROOFS. Encoding and decoding as inverses of each other, as words and as byte lanes (30_encoding.md sections 1 and 2). -/

namespace Sys2Proof

/-- A word is its four byte lanes (R82). -/
theorem append_wordLanes (w : Word) :
    w.extractLsb' 24 8 ++ w.extractLsb' 16 8 ++ w.extractLsb' 8 8 ++ w.extractLsb' 0 8 = w := by
  rw [BitVec.extractLsb'_append_extractLsb'_eq_extractLsb' (show 24 = 16 + 8 from rfl),
    BitVec.extractLsb'_append_extractLsb'_eq_extractLsb' (show 16 = 8 + 8 from rfl),
    BitVec.extractLsb'_append_extractLsb'_eq_extractLsb' (show 8 = 0 + 8 from rfl)]
  exact BitVec.extractLsb'_eq_self

/-- Reading a word by its byte lanes is reading the word (R82). -/
theorem decodeBytes_wordLanes (w : Word) : decodeBytes (wordLanes w) = decode w :=
  congrArg decode (append_wordLanes w)

theorem decode_encode (i : Instr) : decode (encode i) = .ok i := (decode_eq_ok_iff _ i).2 rfl

theorem commandWordWellFormed_encode (i : Instr) : commandWordWellFormed (encode i) = true := by
  cases i <;> decide

/-- The well-formed command words are the six of the table (R120, R124). -/
theorem commandWordWellFormed_iff (w : Word) : commandWordWellFormed w = true ↔ ∃ i, w = encode i := by
  constructor
  · intro hwf
    simp only [commandWordWellFormed, Bool.and_eq_true, beq_iff_eq, decide_eq_true_eq] at hwf
    obtain ⟨⟨hzero, h1⟩, h6⟩ := hwf
    obtain ⟨i, hopc⟩ := exists_opcode_toNat_eq h1 h6
    exact ⟨i, (eq_encode_iff_fields w i).2 ⟨hzero, BitVec.toNat_inj.1 hopc.symm⟩⟩
  · rintro ⟨i, rfl⟩
    exact commandWordWellFormed_encode i

/-- Settles O2: `decode w = .ok i` says `w = encode i`, and the byte lanes of a word are the word. -/
theorem decodeAndEncodeAgree : Obligations.DecodeAndEncodeAgree := by
  refine ⟨fun i _ => ⟨decode_encode i, ?_⟩, fun w i => (decode_eq_ok_iff w i).1, fun w => ?_⟩
  · rw [decodeBytes_wordLanes, decode_encode]
  · simp only [commandWordWellFormed_iff, decode_eq_ok_iff]

end Sys2Proof
end

section
/-! PROOFS. What the engine's step, a host register access and a host operation leave unchanged (00_scope.md R14,
10_state.md section 3, 60_exceptions.md section 3). -/

namespace Sys2Proof.Machine

section HostFrames
variable {s t : State}

/-- Everything a host write can do: nothing, or with BUSY = 0 one of the writes of the register map (R32, R33, R46 to R51). -/
theorem writeReg_cases (s : State) (r : RegSel) (v : Word) :
    writeReg s r v = s ∨
    (s.status.busy = false ∧
      ((r = .cmd ∧ writeReg s r v = acceptCommand s v) ∨ writeReg s r v = acknowledge s ∨
        writeReg s r v = { s with ctrl := ctrlOfWord v } ∨ writeReg s r v = { s with gate := gateOfWord v } ∨
        ∃ i, writeReg s r v = setOperand s i v)) := by
  cases hb : s.status.busy with
  | true => exact .inl (writeReg_busy hb r v)
  | false =>
    rw [writeReg_idle hb]
    cases r with
    | cmd => exact .inr ⟨rfl, .inl ⟨rfl, rfl⟩⟩
    | status =>
      rw [writeRegIdle]
      split
      · exact .inr ⟨rfl, .inr (.inl rfl)⟩
      · exact .inl rfl
    | ctrl => exact .inr ⟨rfl, .inr (.inr (.inl rfl))⟩
    | gate => exact .inr ⟨rfl, .inr (.inr (.inr (.inl rfl)))⟩
    | outLen => exact .inl rfl
    | operand i => exact .inr ⟨rfl, .inr (.inr (.inr (.inr ⟨i, rfl⟩)))⟩
    | reserved => exact .inl rfl

/-- No host write touches the parameters or the entropy port (log entries 1 and 4). -/
theorem writeReg_params_entropyPos (s : State) (r : RegSel) (v : Word) :
    (writeReg s r v).params = s.params ∧ (writeReg s r v).entropyPos = s.entropyPos := by
  obtain h | ⟨-, ⟨-, h⟩ | h | h | h | ⟨i, h⟩⟩ := writeReg_cases s r v <;> simp [h]

/-- No host operation touches the parameters or the entropy port (log entries 1 and 4). -/
theorem hostTurn_params_entropyPos {op : HostOp} (h : hostTurn op s = .next t) :
    t.params = s.params ∧ t.entropyPos = s.entropyPos := by
  obtain ⟨offset, v, r, -, -, rfl⟩ | ⟨offset, r, -, -, rfl⟩ | ⟨a, bs, -, -, -, rfl⟩ | ⟨a, n, -, -, -, rfl⟩ |
    ⟨-, rfl⟩ | ⟨-, rfl⟩ := hostTurn_cases h
  · exact writeReg_params_entropyPos s r v
  · simp [hostRead]
  · obtain ⟨h, -⟩ | ⟨h, -⟩ := hostStore_cases s a bs <;> simp [h]
  · unfold hostLoad
    split <;> simp
  · simp
  · simp

end HostFrames

section EngineSteps
variable {s t : State}

/-- The step on the engine's turn: with BUSY = 1 it completes, with BUSY = 0 only the turn is taken (R270, R302). -/
theorem step_engine (hnext : engineNext s) :
    step s = .next (if s.status.busy then complete (dropTurn s) (engineVerdict (dropTurn s)) else dropTurn s) := by
  rw [step_of_engineNext hnext, engineTurn_eq, dropTurn_status]

theorem step_engine_busy (hnext : engineNext s) (hbusy : s.status.busy = true) :
    step s = .next (complete (dropTurn s) (engineVerdict (dropTurn s))) := by
  rw [step_engine hnext, if_pos hbusy]

theorem step_engine_idle (hnext : engineNext s) (hidle : s.status.busy = false) : step s = .next (dropTurn s) := by
  rw [step_engine hnext, if_neg (by simp [hidle])]

theorem dropTurn_of_cons {u : Turn} {ts : List Turn} (h : s.turns = u :: ts) : dropTurn s = { s with turns := ts } := by
  rw [dropTurn, h, List.tail_cons]

theorem dropTurn_of_nil (h : s.turns = []) : dropTurn s = s := by
  rw [dropTurn, h, List.tail_nil, ← h]

theorem engineNext_of_nil (h : s.turns = []) : engineNext s := by
  rw [engineNext, h]
  trivial

theorem engineNext_of_cons {ts : List Turn} (h : s.turns = .engine :: ts) : engineNext s := by
  rw [engineNext, h]
  trivial

/-- A waiting host operation is the step, on the state less the turn taken (R14). -/
theorem step_host {op : HostOp} {ts : List Turn} (h : s.turns = .host op :: ts) :
    step s = hostTurn op (dropTurn s) := by
  rw [step, nextTurn, h, dropTurn_of_cons h]


/-- What the engine's step leaves unchanged (R31, R49, R270): all that a command does, less the turn taken. -/
theorem restUnchanged_step_engine (hnext : engineNext s) (hstep : step s = .next t) :
    RestUnchanged (dropTurn s) t := by
  rw [step_engine hnext, Host.Outcome.next.injEq] at hstep
  subst hstep
  split
  · exact restUnchanged_complete _ _
  · constructor <;> rfl

theorem entropyPos_le_complete (s : State) (v : Verdict) : s.entropyPos ≤ (complete s v).entropyPos := by
  cases v with
  | ok f => exact Nat.le_add_right _ _
  | error e => exact Nat.le_refl _

/-- The entropy port never goes back, whoever moves (log entry 4). -/
theorem entropyPos_le_of_step (hstep : step s = .next t) : s.entropyPos ≤ t.entropyPos := by
  obtain ⟨hnext, -⟩ | ⟨op, ts, hturns, -⟩ := step_cases s
  · rw [step_engine hnext, Host.Outcome.next.injEq] at hstep
    subst hstep
    split
    · exact entropyPos_le_complete (dropTurn s) _
    · exact Nat.le_refl _
  · rw [step_host hturns] at hstep
    exact (hostTurn_params_entropyPos hstep).2.ge

theorem params_of_step (hstep : step s = .next t) : t.params = s.params := by
  obtain ⟨hnext, -⟩ | ⟨op, ts, hturns, -⟩ := step_cases s
  · exact (restUnchanged_step_engine hnext hstep).params
  · rw [step_host hturns] at hstep
    exact (hostTurn_params_entropyPos hstep).1

end EngineSteps

/-- Settles O6: the engine's step is the completion step. -/
theorem engineAlwaysCompletes : Obligations.EngineAlwaysCompletes := fun _ hbusy hnext =>
  ⟨_, step_engine_busy hnext hbusy, complete_busy _ _, complete_done _ _⟩

/-- Settles O11: the engine's step leaves what a command leaves, and no host operation moves the entropy port. -/
theorem engineKeepsOperandsAndControl : Obligations.EngineKeepsOperandsAndControl := by
  intro s t hstep
  refine ⟨params_of_step hstep, entropyPos_le_of_step hstep, fun hnext => ?_⟩
  have hrest := restUnchanged_step_engine hnext hstep
  exact ⟨hrest.x, hrest.ctrl, hrest.gate, hrest.curCmd, hrest.freePos, hrest.synced, hrest.results, hrest.answers,
    hrest.turns⟩

/-- Settles O12: every command ends by the completion step. -/
theorem commandsKeepOperandsAndControl : Obligations.CommandsKeepOperandsAndControl := fun i s =>
  ⟨_, exec_eq_complete i s, complete_busy s _, complete_done s _, restUnchanged_complete s _⟩

/-- Settles O4: the engine's turn decodes CUR_CMD and runs the command. -/
theorem stepRunsTheDecodedCommand : Obligations.StepRunsTheDecodedCommand := by
  intro s i hbusy hdec
  refine ⟨fun hturns => ?_, fun ts hturns => ?_⟩
  · rw [step_of_decode_ok hbusy (engineNext_of_nil hturns) hdec, dropTurn_of_nil hturns]
  · rw [step_of_decode_ok hbusy (engineNext_of_cons hturns) hdec, dropTurn_of_cons hturns]

/-- Settles O7: it is the engine's turn, there is nothing to run and no turn to take. -/
theorem idleMachineWaits : Obligations.IdleMachineWaits := by
  intro s hidle hturns
  rw [step_engine_idle (engineNext_of_nil hturns) hidle, dropTurn_of_nil hturns]

/-- Settles O41: the host's turn at the head of the schedule is the step. -/
theorem stepRunsTheHostOperation : Obligations.StepRunsTheHostOperation := by
  intro s op ts hturns
  rw [step_host hturns, dropTurn_of_cons hturns]

/-! ### Where a step stops (R84, R93) -/

section Duties
variable {s : State}

/-- A register access answers exactly at the offsets of the register map (R84). -/
theorem exists_hostTurn_wr_iff (offset : Byte) (v : Word) :
    (∃ t, hostTurn (.wr offset v) s = .next t) ↔ offset.toNat % 4 = 0 := by
  rw [← regAt_isSome_iff]
  cases h : regAt offset <;> simp [hostTurn, h]

theorem exists_hostTurn_rd_iff (offset : Byte) :
    (∃ t, hostTurn (.rd offset) s = .next t) ↔ offset.toNat % 4 = 0 := by
  rw [← regAt_isSome_iff]
  cases h : regAt offset <;> simp [hostTurn, h]

/-- A host access to MEM answers exactly while BUSY = 0 and inside MEM (R55, R93). -/
theorem exists_hostTurn_ldm_iff (a : Word) (bs : List Byte) :
    (∃ t, hostTurn (.ldm a bs) s = .next t) ↔ s.status.busy = false ∧ windowOK s a bs.length := by
  cases hb : s.status.busy with
  | true => simp [hostTurn, hb]
  | false => by_cases hw : windowOK s a bs.length <;> simp [hostTurn, hb, hw]

theorem exists_hostTurn_stm_iff (a : Word) (n : Nat) :
    (∃ t, hostTurn (.stm a n) s = .next t) ↔ s.status.busy = false ∧ windowOK s a n := by
  cases hb : s.status.busy with
  | true => simp [hostTurn, hb]
  | false => by_cases hw : windowOK s a n <;> simp [hostTurn, hb, hw]

/-- A host operation answers a next state exactly when the host keeps its duties. -/
theorem exists_hostTurn_iff_hostDuty {op : HostOp} {ts : List Turn} (hturns : s.turns = .host op :: ts) :
    (∃ t, hostTurn op (dropTurn s) = .next t) ↔ hostDuty s := by
  rw [hostDuty, hturns]
  cases op with
  | wr offset v => exact exists_hostTurn_wr_iff offset v
  | rd offset => exact exists_hostTurn_rd_iff offset
  | ldm a bs => exact exists_hostTurn_ldm_iff a bs
  | stm a n => exact exists_hostTurn_stm_iff a n
  | sampleIrq => exact iff_of_true ⟨_, rfl⟩ trivial
  | rst => exact iff_of_true ⟨_, rfl⟩ trivial

/-- The engine's turn asks nothing of the host. -/
theorem hostDuty_of_engineNext (hnext : engineNext s) : hostDuty s := by
  unfold engineNext at hnext
  unfold hostDuty
  split at hnext
  · next h => rw [h]; trivial
  · next h => rw [h]; trivial
  · exact hnext.elim

end Duties

/-- Settles O8: the engine's turn always answers, and each host operation answers under its own duty. -/
theorem stepStopsOnlyOnBrokenDuty : Obligations.StepStopsOnlyOnBrokenDuty := by
  intro s
  obtain ⟨hnext, -⟩ | ⟨op, ts, hturns, -⟩ := step_cases s
  · exact iff_of_true ⟨_, step_engine hnext⟩ (hostDuty_of_engineNext hnext)
  · rw [step_host hturns]
    exact exists_hostTurn_iff_hostDuty hturns

end Sys2Proof.Machine
end

section
/-! PROOFS. The invariant: what keeps it, operation by operation, and that every step does (10_state.md section 3,
20_memory.md sections 4 and 6, 60_exceptions.md R260). -/

namespace Sys2Proof.Machine

theorem errorCode_mem_errorCodes (e : Error) : errorCode e ∈ errorCodes := by
  cases e <;> decide

theorem zero_mem_errorCodes : (0 : Byte) ∈ errorCodes := by decide

theorem errorCode_ne_zero (e : Error) : errorCode e ≠ 0 := by
  cases e <;> decide

theorem memWrite_nil (m : Memory) (a : Nat) : memWrite m a [] = m := rfl

namespace Inv
variable {s t : State}

/-- The invariant speaks of no field but these six. -/
theorem of_eq (h : Inv s) (hstatus : t.status = s.status) (houtLen : t.outLen = s.outLen) (hmem : t.mem = s.mem)
    (hparams : t.params = s.params) (hsynced : t.synced = s.synced) (hresults : t.results = s.results) : Inv t where
  params := by rw [hparams]; exact h.params
  memCanonical := by rw [hmem]; exact h.memCanonical
  memInside := by rw [hparams, hmem]; exact h.memInside
  busyClean := by rw [hstatus, houtLen]; exact h.busyClean
  errDone := by rw [hstatus, houtLen]; exact h.errDone
  errKnown := by rw [hstatus]; exact h.errKnown
  outInside := by rw [houtLen, hparams]; exact h.outInside
  busyUnsynced := by rw [hstatus, hsynced]; exact h.busyUnsynced
  resultsInside := by rw [hresults, hparams]; exact h.resultsInside

theorem dropTurn (h : Inv s) : Inv (dropTurn s) := h.of_eq rfl rfl rfl rfl rfl rfl

theorem answer (h : Inv s) (a : Answer) : Inv (answer s a) := h.of_eq rfl rfl rfl rfl rfl rfl

/-! ### The engine -/

/-- `fail E` shows a code of the table beside DONE, and no output (R260, R271). -/
theorem completeFail (h : Inv s) (e : Error) : Inv (completeFail s e) :=
  { h with
    busyClean := nofun
    errDone := fun _ => ⟨rfl, rfl⟩
    errKnown := errorCode_mem_errorCodes e
    outInside := Nat.zero_le _
    busyUnsynced := nofun }

/-- A command that succeeds writes and reports within MEM (R50, R88). -/
theorem completeOk (h : Inv s) {i : Instr} {f : Effect} (hv : verdictOf i s = .ok f) : Inv (completeOk s f) := by
  obtain ⟨hwrites, hinside, hlen⟩ := verdict_writes hv
  refine { h with
    memCanonical := memWriteAll_wf h.memCanonical
    memInside := memWriteAll_below h.memInside fun w hw => ?_
    busyClean := nofun
    errDone := fun herr => absurd rfl herr
    errKnown := zero_mem_errorCodes
    outInside := ?_
    busyUnsynced := nofun }
  · obtain ⟨r, -, hbase, hwlen, hvalid⟩ := hwrites w hw
    rw [hbase, hwlen]
    exact hvalid
  · rw [completeOk_outLen, BitVec.toNat_ofNat, Nat.mod_eq_of_lt hlen]
    exact hinside

theorem complete_engineVerdict (h : Inv s) : Inv (complete s (engineVerdict s)) := by
  unfold engineVerdict
  split
  · next i _ =>
    cases hv : verdictOf i s with
    | ok f => exact h.completeOk hv
    | error e => exact h.completeFail e
  · exact h.completeFail .illegalCommand

/-! ### The host's register accesses -/

/-- Acceptance clears the flags and OUT_LEN, opens the window and notes ranges of MEM (R46, R93). -/
theorem acceptCommand (h : Inv s) (w : Word) : Inv (acceptCommand s w) :=
  { h with
    busyClean := fun _ => ⟨rfl, rfl, rfl⟩
    errDone := fun herr => absurd rfl herr
    errKnown := zero_mem_errorCodes
    outInside := Nat.zero_le _
    busyUnsynced := fun _ => rfl
    resultsInside := fun r hr => by
      rcases List.mem_append.1 hr with hopen | hword
      · exact h.resultsInside r (mem_openResults.1 hopen).2
      · exact wordRanges_inside hword }

theorem acknowledge (h : Inv s) : Inv (acknowledge s) :=
  { h with
    busyClean := fun hbusy => by
      obtain ⟨-, -, hlen⟩ := h.busyClean hbusy
      exact ⟨rfl, rfl, hlen⟩
    errDone := fun herr => absurd rfl herr
    errKnown := zero_mem_errorCodes }

theorem writeReg (h : Inv s) (r : RegSel) (v : Word) : Inv (writeReg s r v) := by
  obtain hw | ⟨-, ⟨-, hw⟩ | hw | hw | hw | ⟨i, hw⟩⟩ := writeReg_cases s r v <;> rw [hw]
  · exact h
  · exact h.acceptCommand v
  · exact h.acknowledge
  · exact h.of_eq rfl rfl rfl rfl rfl rfl
  · exact h.of_eq rfl rfl rfl rfl rfl rfl
  · exact h.of_eq rfl rfl rfl rfl rfl rfl

/-- A STATUS read notes that the host has synchronised only where BUSY = 0 (R94). -/
theorem noteRead (h : Inv s) (r : RegSel) : Inv (noteRead s r) := by
  unfold Machine.noteRead
  split
  · next hread => exact { h with busyUnsynced := fun hbusy => absurd hbusy (by simp [hread.2]) }
  · exact h

/-! ### The host's accesses to MEM -/

theorem hostLoad (h : Inv s) (a : Word) (n : Nat) : Inv (hostLoad s a n) := by
  unfold Machine.hostLoad
  split
  · exact h.answer _
  · exact h.of_eq rfl rfl rfl rfl rfl rfl

theorem storeBytes (h : Inv s) {a : Word} {bs : List Byte} (hw : windowOK s a bs.length) : Inv (storeBytes s a bs) :=
  { h with
    memCanonical := memWrite_wf h.memCanonical
    memInside := by
      rcases hw with hlen | hin
      · rw [List.length_eq_zero_iff.1 hlen, storeBytes_mem, memWrite_nil]
        exact h.memInside
      · exact memWrite_below h.memInside hin }

/-- A spoiled result keeps the limits of R47, R50 and R260 (log entry 20). -/
theorem spoilResult (h : Inv s) (hidle : s.status.busy = false) : Inv (spoilResult s) :=
  { h with
    memCanonical := scramble_wf h.memCanonical
    memInside := scramble_below h.memInside h.resultsInside
    busyClean := fun hbusy => absurd (hidle.symm.trans hbusy) (by decide)
    errDone := fun herr => by
      refine ⟨?_, spoiledLen_of_err herr⟩
      by_contra hdone
      have hkept : spoiledErr s = s.status.err := if_neg hdone
      exact hdone (h.errDone (hkept ▸ herr)).1
    errKnown := spoiledErr_known h.errKnown
    outInside := spoiledLen_le s }

theorem hostStore (h : Inv s) (hidle : s.status.busy = false) {a : Word} {bs : List Byte}
    (hw : windowOK s a bs.length) : Inv (hostStore s a bs) := by
  obtain ⟨hstore, -⟩ | ⟨hstore, -⟩ := hostStore_cases s a bs <;> rw [hstore]
  · exact h.storeBytes hw
  · exact (h.storeBytes hw).spoilResult hidle

/-! ### Reset -/

/-- A reset clears every register and writes within MEM only (R60, R300). -/
theorem resetCore (h : Inv s) : Inv (resetCore s) where
  params := h.params
  memCanonical := scramble_wf h.memCanonical
  memInside := scramble_below h.memInside fun _ => abandonedRanges_inside
  busyClean := nofun
  errDone := fun herr => absurd rfl herr
  errKnown := zero_mem_errorCodes
  outInside := Nat.zero_le _
  busyUnsynced := nofun
  resultsInside := nofun

theorem hostTurn (h : Inv s) {op : HostOp} (hstep : hostTurn op s = .next t) : Inv t := by
  obtain ⟨offset, v, r, -, -, rfl⟩ | ⟨offset, r, -, -, rfl⟩ | ⟨a, bs, -, hidle, hw, rfl⟩ | ⟨a, n, -, -, -, rfl⟩ |
    ⟨-, rfl⟩ | ⟨-, rfl⟩ := hostTurn_cases hstep
  · exact h.writeReg r v
  · exact (h.noteRead r).answer _
  · exact h.hostStore hidle hw
  · exact h.hostLoad a n
  · exact h.answer _
  · exact h.resetCore

end Inv

/-- Settles O9: the engine's step completes a verdict, and each host operation keeps the invariant. -/
theorem everyStepKeepsInvariant : Obligations.EveryStepKeepsInvariant := by
  intro s t h hstep
  obtain ⟨hnext, -⟩ | ⟨op, ts, hturns, -⟩ := step_cases s
  · rw [step_engine hnext, Host.Outcome.next.injEq] at hstep
    subst hstep
    split
    · exact h.dropTurn.complete_engineVerdict
    · exact h.dropTurn
  · rw [step_host hturns] at hstep
    exact h.dropTurn.hostTurn hstep

/-- Power-on with well-formed parameters and MEM contents (R60, R301). -/
theorem inv_powerOn {p : Params} {m : Memory} (hp : p.wellFormed = true) (hwf : memWf m = true)
    (hin : memBelow p.memBytes m = true) : Inv (State.powerOn p m) where
  params := hp
  memCanonical := hwf
  memInside := hin
  busyClean := nofun
  errDone := fun herr => absurd rfl herr
  errKnown := zero_mem_errorCodes
  outInside := Nat.zero_le _
  busyUnsynced := nofun
  resultsInside := nofun

/-- Settles O10: reset is power-on with its own parameters and no byte of MEM listed. -/
theorem invariantAtReset : Obligations.InvariantAtReset :=
  ⟨inv_powerOn (p := State.reset.params) (m := []) (by decide) rfl rfl, fun _ _ => inv_powerOn⟩

end Sys2Proof.Machine
end

section
/-! PROOFS. STATUS, CTRL, GATE, OUT_LEN and the reserved offsets, read and written by the host (10_state.md section 3). -/

namespace Sys2Proof.Machine

/-! ### The words that are read -/

/-- A word put together from two parts is the number of the upper part moved up, plus the lower. -/
theorem toNat_append_eq_add {m n : Nat} (u : BitVec m) (v : BitVec n) : (u ++ v).toNat = 2 ^ n * u.toNat + v.toNat := by
  rw [BitVec.toNat_append, ← Nat.shiftLeft_add_eq_or_of_lt v.isLt, Nat.shiftLeft_eq, Nat.mul_comm]

/-- STATUS as a number: its fields at their bit positions, the reserved bits 0 (R47). -/
theorem statusWord_toNat (t : Status) :
    (statusWord t).toNat = 256 * t.err.toNat + 2 * t.done.toNat + t.busy.toNat := by
  simp only [statusWord, toNat_append_eq_add, BitVec.toNat_ofBool, BitVec.toNat_ofNat]
  omega

/-- BUSY is bit 0 of STATUS (R47). -/
theorem statusWord_getLsbD_zero (t : Status) : (statusWord t).getLsbD 0 = t.busy := by
  simp only [statusWord, BitVec.getLsbD_append, Nat.zero_lt_one, if_true, BitVec.getLsbD_ofBool, decide_true, Bool.true_and]

/-- Two flags at bits 1 and 0 taken from a word are its remainder modulo 4 (R48, R49). -/
theorem lowTwoBits_toNat (w : Word) :
    (0#30 ++ BitVec.ofBool (w.getLsbD 1) ++ BitVec.ofBool (w.getLsbD 0)).toNat = w.toNat % 4 := by
  simp only [toNat_append_eq_add, BitVec.toNat_ofBool, BitVec.toNat_ofNat, ← BitVec.testBit_toNat, Nat.toNat_testBit]
  omega

theorem ctrlWord_ctrlOfWord_toNat (w : Word) : (ctrlWord (ctrlOfWord w)).toNat = w.toNat % 4 := lowTwoBits_toNat w

theorem gateWord_gateOfWord_toNat (w : Word) : (gateWord (gateOfWord w)).toNat = w.toNat % 4 := lowTwoBits_toNat w

/-! ### The offsets -/

theorem regAt_ctrl : regAt 0x08 = some .ctrl := rfl

theorem regAt_gate : regAt 0x0C = some .gate := rfl

theorem regAt_outLen : regAt 0x10 = some .outLen := rfl

/-- The reserved offsets 0x14 .. 0x1C and 0x48 .. 0xFF (R45). -/
theorem regAt_reserved : ∀ offset : Byte, offset.toNat % 4 = 0 →
    (0x14 ≤ offset.toNat ∧ offset.toNat ≤ 0x1C) ∨ 0x48 ≤ offset.toNat → regAt offset = some .reserved := by
  decide

/-- STATUS and CMD stand at one offset each (R45). -/
theorem eq_of_regAt_status : ∀ {offset : Byte}, regAt offset = some .status → offset = 0x04 := by
  decide

theorem eq_of_regAt_cmd : ∀ {offset : Byte}, regAt offset = some .cmd → offset = 0x00 := by
  decide

theorem regAt_of_misaligned {offset : Byte} (h : offset.toNat % 4 ≠ 0) : regAt offset = none := if_pos h

/-! ### Reads and writes -/

section Accesses
variable {s : State}

/-- A STATUS read answers its word and notes in `synced` whether BUSY was 0 (R47, R94). -/
theorem hostTurn_rd_status (s : State) : hostTurn (.rd 0x04) s =
    .next { s with answers := s.answers ++ [.word (statusWord s.status)], synced := s.synced || !s.status.busy } := by
  rw [hostTurn_rd regAt_status, hostRead_frame]
  simp [hostRead, readReg]

/-- A read at the offset of another register only answers (R33, R87). -/
theorem hostTurn_rd_of_ne_status {offset : Byte} {r : RegSel} (hat : regAt offset = some r) (hr : r ≠ .status) :
    hostTurn (.rd offset) s = .next (answer s (.word (readReg s r))) := by
  rw [hostTurn_rd hat, hostRead_of_ne_status hr]

/-- A STATUS write with bit 1 clear changes nothing (R47). -/
theorem hostTurn_wr_status_of_bit_clear (hidle : s.status.busy = false) {w : Word} (hbit : w.getLsbD 1 = false) :
    hostTurn (.wr 0x04 w) s = .next s := by
  rw [hostTurn_wr regAt_status, writeReg_idle hidle, writeRegIdle, if_neg (ne_true_of_eq_false hbit)]

theorem acknowledge_of_idle (hidle : s.status.busy = false) :
    acknowledge s = { s with status := { busy := false, done := false, err := 0 } } := by
  simp only [acknowledge, hidle]

/-- A register that ignores writes ignores them while BUSY = 1 too (R33, R51). -/
theorem writeReg_of_ignored {r : RegSel} {v : Word} (h : writeRegIdle s r v = s) : writeReg s r v = s := by
  rw [writeReg, h, ite_self]

end Accesses

/-- Settles O45: the STATUS word by its fields; with BUSY = 0 a write is `acknowledge` or nothing. -/
theorem statusReadsAndClears : Obligations.StatusReadsAndClears := by
  intro s w
  refine ⟨⟨_, hostTurn_rd_status s, statusWord_toNat s.status⟩, fun hidle hbit => ?_,
    fun hidle hbit => hostTurn_wr_status_of_bit_clear hidle hbit⟩
  rw [hostTurn_wr_status_ack hidle hbit, acknowledge_of_idle hidle]

/-- Settles O46: each register keeps two flags, which read back as the written word modulo 4. -/
theorem ctrlAndGateKeepTwoBits : Obligations.CtrlAndGateKeepTwoBits := by
  intro s w hidle
  constructor
  · refine ⟨{ s with ctrl := ctrlOfWord w }, _, ?_, rfl, hostTurn_rd_of_ne_status regAt_ctrl (by simp),
      ctrlWord_ctrlOfWord_toNat w, rfl⟩
    rw [hostTurn_wr regAt_ctrl, writeReg_idle hidle, writeRegIdle]
  · refine ⟨{ s with gate := gateOfWord w }, _, ?_, rfl, hostTurn_rd_of_ne_status regAt_gate (by simp),
      gateWord_gateOfWord_toNat w, rfl⟩
    rw [hostTurn_wr regAt_gate, writeReg_idle hidle, writeRegIdle]

/-- Settles O47: reads that only answer, and writes that the register map ignores. -/
theorem reservedAndReadOnlyOffsets : Obligations.ReservedAndReadOnlyOffsets := by
  intro s offset w
  refine ⟨hostTurn_rd_of_ne_status regAt_cmd (by simp), hostTurn_rd_of_ne_status regAt_outLen (by simp), ?_,
    fun haligned hrange => ?_⟩
  · rw [hostTurn_wr regAt_outLen, writeReg_of_ignored rfl]
  · have hat := regAt_reserved offset haligned hrange
    refine ⟨hostTurn_rd_of_ne_status hat (by simp), ?_⟩
    rw [hostTurn_wr hat, writeReg_of_ignored rfl]

/-- Settles O50: BUSY = 1 stops an access to MEM, and a misaligned offset reaches no register. -/
theorem brokenDutiesAreRefused : Obligations.BrokenDutiesAreRefused := by
  intro s a bs n offset v
  refine ⟨fun hbusy => ?_, fun hmisaligned => ?_⟩
  · exact ⟨if_pos hbusy, if_pos hbusy⟩
  · simp only [hostTurn, regAt_of_misaligned hmisaligned, and_self]

/-- Settles O52: the fixed reset state, register by register. -/
theorem resetValues : Obligations.ResetValues := by
  refine ⟨fun i => ?_, ?_, ?_, ?_, rfl, rfl⟩
  · simp [State.reset]
  · decide
  · decide
  · decide

end Sys2Proof.Machine
end

section
/-! PROOFS. The host's accesses to MEM, reset, and the window between the accepted CMD write and the STATUS read of BUSY = 0
(20_memory.md section 6, 10_state.md section 6). -/

namespace Sys2Proof.Machine

/-! ### Accesses to MEM -/

/-- `MemWrite` as reads see it: the bytes written inside the range, the old byte elsewhere (R12). -/
theorem readByte_memWrite_eq_ite {m : Memory} {a : Nat} {bs : List Byte} (hwf : memWf m = true) (c : Nat) :
    readByte (memWrite m a bs) c =
      if a ≤ c ∧ c < a + bs.length then bs.getD (c - a) 0 else readByte m c := by
  split
  · next hin =>
    have hlt : c - a < bs.length := by omega
    rw [readByte_memWrite hwf, if_pos hin.1, List.getD_eq_getElem?_getD, List.getElem?_eq_getElem hlt,
      Option.getD_some, Option.getD_some]
  · next hout => exact readByte_memWrite_outside hwf (by omega)

section Accesses
variable {s : State} {a : Word}

theorem hostTurn_ldm {bs : List Byte} (hidle : s.status.busy = false) (hw : windowOK s a bs.length) :
    hostTurn (.ldm a bs) s = .next (hostStore s a bs) := by
  rw [hostTurn, if_neg (by simp [hidle]), if_pos hw]

theorem hostTurn_stm {n : Nat} (hidle : s.status.busy = false) (hw : windowOK s a n) :
    hostTurn (.stm a n) s = .next (hostLoad s a n) := by
  rw [hostTurn, if_neg (by simp [hidle]), if_pos hw]

theorem hostStore_unsynced {bs : List Byte} (hs : s.synced = false) (hbs : bs ≠ []) :
    hostStore s a bs = spoilResult (storeBytes s a bs) := if_neg (by simp [hs, hbs])

/-- A write in the window, as reads outside the noted results see it. -/
theorem readByte_spoilResult_storeBytes {bs : List Byte} {c : Nat} (hwf : memWf s.mem = true)
    (hout : ∀ r ∈ s.results, c < r.base ∨ r.base + r.len ≤ c) :
    readByte (spoilResult (storeBytes s a bs)).mem c =
      if a.toNat ≤ c ∧ c < a.toNat + bs.length then bs.getD (c - a.toNat) 0 else readByte s.mem c := by
  rw [spoilResult_mem, storeBytes_mem, storeBytes_results, readByte_scramble_outside (memWrite_wf hwf) hout]
  exact readByte_memWrite_eq_ite hwf c

end Accesses

/-- Settles O49: where `synced` holds, `ldm` is `storeBytes` and `stm` answers what MEM holds. -/
theorem hostMemoryWindow : Obligations.HostMemoryWindow := by
  intro s a bs n hwf hidle hs hstore hload
  refine ⟨⟨storeBytes s a bs, ?_, rfl, memWrite_wf hwf, readByte_memWrite_eq_ite hwf⟩, ?_⟩
  · rw [hostTurn_ldm hidle (.inr hstore), hostStore_synced hs]
  · rw [hostTurn_stm hidle (.inr hload), hostLoad_synced hs]
    rfl

/-- Settles O56: `stm` answers free bytes; `ldm` stores, then spoils the noted results within the limits of R47, R50 and
R260. -/
theorem unsynchronisedMemoryAccess : Obligations.UnsynchronisedMemoryAccess := by
  intro s a bs n hinv hidle hs hstore hload
  refine ⟨⟨freeBytes s.freePos n, freeBytes_length _ _, ?_⟩, fun hbs => ?_⟩
  · rw [hostTurn_stm hidle (.inr hload), hostLoad_unsynced hs]
    rfl
  · refine ⟨spoilResult (storeBytes s a bs), ?_, rfl, spoiledErr_known (s := storeBytes s a bs) hinv.errKnown,
      fun hdone => ?_, spoiledLen_of_err, spoiledLen_le _, scramble_wf (memWrite_wf hinv.memCanonical),
      fun c => readByte_spoilResult_storeBytes hinv.memCanonical⟩
    · rw [hostTurn_ldm hidle (.inr hstore), hostStore_unsynced hs hbs]
    · exact if_neg (by simp [hdone])

/-! ### The ranges noted at acceptance -/

section Ranges
variable {s : State} {w : Word}

theorem wordRanges_of_decode {i : Instr} (hdec : decode w = .ok i) :
    wordRanges s w = (outputRanges i s).map (clipRange s.params.memBytes) := by
  rw [wordRanges, hdec]

theorem wordRanges_of_illegal (hillegal : ∀ i, decode w ≠ .ok i) : wordRanges s w = [] := by
  unfold wordRanges
  split
  · next i hdec => exact absurd hdec (hillegal i)
  · rfl

/-- An address lies in a clipped range if it lies in the range and in MEM. -/
theorem mem_clipRange_iff {bound c : Nat} {r : Range} :
    ((clipRange bound r).base ≤ c ∧ c < (clipRange bound r).base + (clipRange bound r).len) ↔
      c < bound ∧ r.base ≤ c ∧ c < r.base + r.len := by
  simp only [clipRange]
  omega

/-- The addresses of a word's ranges are those of its command's output ranges within MEM (R90). -/
theorem exists_mem_wordRanges_iff {c : Nat} :
    (∃ r ∈ wordRanges s w, r.base ≤ c ∧ c < r.base + r.len) ↔
      c < s.params.memBytes ∧ ∃ i, decode w = .ok i ∧ ∃ r ∈ outputRanges i s, r.base ≤ c ∧ c < r.base + r.len := by
  by_cases hcmd : ∃ i, decode w = .ok i
  · obtain ⟨i, hdec⟩ := hcmd
    simp only [wordRanges_of_decode hdec, List.mem_map, exists_exists_and_eq_and, mem_clipRange_iff, hdec, Except.ok.injEq,
      exists_eq_left']
    exact ⟨fun ⟨r, hr, hc, hin⟩ => ⟨hc, r, hr, hin⟩, fun ⟨hc, r, hr, hin⟩ => ⟨r, hr, hc, hin⟩⟩
  · rw [wordRanges_of_illegal (not_exists.1 hcmd)]
    exact iff_of_false nofun fun ⟨_, i, hdec, _⟩ => hcmd ⟨i, hdec⟩

/-- What an accepted word leaves noted: the open results and its own ranges (R93). -/
theorem exists_mem_results_acceptCommand_iff {c : Nat} :
    (∃ r ∈ (acceptCommand s w).results, r.base ≤ c ∧ c < r.base + r.len) ↔
      (s.synced = false ∧ ∃ r ∈ s.results, r.base ≤ c ∧ c < r.base + r.len) ∨
      ∃ r ∈ wordRanges s w, r.base ≤ c ∧ c < r.base + r.len := by
  simp only [acceptCommand_results, List.mem_append, mem_openResults, or_and_right, exists_or, and_assoc,
    exists_and_left]

end Ranges

/-! ### Reset -/

section Reset
variable {s : State}

theorem abandonedRanges_idle (hidle : s.status.busy = false) : abandonedRanges s = [] := if_neg (by simp [hidle])

theorem abandonedRanges_busy (hbusy : s.status.busy = true) : abandonedRanges s = wordRanges s s.curCmd := if_pos hbusy

/-- With no range to abandon a reset keeps MEM (R301). -/
theorem resetCore_mem_of_abandonedRanges_nil (h : abandonedRanges s = []) : (resetCore s).mem = s.mem := by
  rw [resetCore_mem, resetMem, h, List.foldl_nil]

/-- A reset keeps every byte outside the running command's output ranges (R60, R300). -/
theorem memUnchangedOutside_resetCore (hwf : memWf s.mem = true) (hbusy : s.status.busy = true) {i : Instr}
    (hdec : decode s.curCmd = .ok i) : memUnchangedOutside (outputRanges i s) s (resetCore s) := by
  intro c hout
  rw [resetCore_mem, resetMem]
  refine readByte_scramble_outside hwf fun q hq => ?_
  rw [abandonedRanges_busy hbusy, wordRanges_of_decode hdec] at hq
  obtain ⟨r, hr, rfl⟩ := List.mem_map.1 hq
  have hclear := hout r hr
  simp only [clipRange]
  omega

end Reset

/-- Settles O51: every register as in `resetCore`, and MEM by whether a command is abandoned. -/
theorem resetEventClearsRegisters : Obligations.ResetEventClearsRegisters := by
  intro s hwf
  refine ⟨resetCore s, rfl, fun i => ?_, rfl, rfl, rfl, rfl, irq_eq_false_of_disabled rfl rfl, rfl, rfl, rfl, rfl, rfl,
    rfl, fun hidle => ?_, fun hbusy i hdec => memUnchangedOutside_resetCore hwf hbusy hdec, fun hbusy hillegal => ?_⟩
  · simp
  · exact resetCore_mem_of_abandonedRanges_nil (abandonedRanges_idle hidle)
  · refine resetCore_mem_of_abandonedRanges_nil ?_
    rw [abandonedRanges_busy hbusy, wordRanges_of_illegal hillegal]

/-! ### The window -/

section Window
variable {s t : State}

/-- While BUSY = 1 a read notes nothing. -/
theorem hostRead_busy (hbusy : s.status.busy = true) (r : RegSel) :
    hostRead s r = answer s (.word (readReg s r)) := by
  rw [hostRead, noteRead, if_neg (by simp [hbusy])]

/-- While BUSY = 1 a host operation that answers, other than a reset, changes at most the answers (R33, R93). -/
theorem hostTurn_busy {op : HostOp} (hbusy : s.status.busy = true) (hop : op ≠ .rst) (h : hostTurn op s = .next t) :
    t = { s with answers := t.answers } := by
  obtain ⟨offset, v, r, -, -, rfl⟩ | ⟨offset, r, -, -, rfl⟩ | ⟨a, bs, -, hidle, -⟩ | ⟨a, n, -, hidle, -⟩ |
    ⟨-, rfl⟩ | ⟨hrst, -⟩ := hostTurn_cases h
  · rw [writeReg_busy hbusy]
  · rw [hostRead_busy hbusy]
    rfl
  · exact absurd (hidle.symm.trans hbusy) (by decide)
  · exact absurd (hidle.symm.trans hbusy) (by decide)
  · rfl
  · exact absurd hrst hop

theorem hostStore_synced_results (s : State) (a : Word) (bs : List Byte) :
    (hostStore s a bs).synced = s.synced ∧ (hostStore s a bs).results = s.results := by
  obtain ⟨h, -⟩ | ⟨h, -⟩ := hostStore_cases s a bs <;> simp [h]

theorem hostLoad_synced_results (s : State) (a : Word) (n : Nat) :
    (hostLoad s a n).synced = s.synced ∧ (hostLoad s a n).results = s.results := by
  unfold hostLoad
  split <;> simp

/-- The host operations that can change `synced` or `results`: an accepted CMD write, a STATUS read of BUSY = 0, and a
reset (R93, R94). -/
theorem hostTurn_window_cases {op : HostOp} (h : hostTurn op s = .next t) :
    (t.synced = s.synced ∧ t.results = s.results) ∨
    (s.status.busy = false ∧ (∃ w, op = .wr 0x00 w) ∧ t.synced = false) ∨
    (s.status.busy = false ∧ op = .rd 0x04 ∧ t.synced = true ∧ t.results = s.results) ∨
    (op = .rst ∧ t.synced = true) := by
  obtain ⟨offset, v, r, rfl, hat, rfl⟩ | ⟨offset, r, rfl, hat, rfl⟩ | ⟨a, bs, -, -, -, rfl⟩ | ⟨a, n, -, -, -, rfl⟩ |
    ⟨-, rfl⟩ | ⟨rfl, rfl⟩ := hostTurn_cases h
  · obtain hw | ⟨hidle, ⟨rfl, hw⟩ | hw | hw | hw | ⟨i, hw⟩⟩ := writeReg_cases s r v <;> rw [hw]
    · exact .inl ⟨rfl, rfl⟩
    · exact .inr (.inl ⟨hidle, ⟨v, by rw [eq_of_regAt_cmd hat]⟩, rfl⟩)
    · exact .inl ⟨rfl, rfl⟩
    · exact .inl ⟨rfl, rfl⟩
    · exact .inl ⟨rfl, rfl⟩
    · exact .inl ⟨rfl, rfl⟩
  · by_cases hread : r = .status ∧ s.status.busy = false
    · obtain ⟨rfl, hidle⟩ := hread
      exact .inr (.inr (.inl ⟨hidle, by rw [eq_of_regAt_status hat], by simp [hostRead, hidle], by simp [hostRead]⟩))
    · rw [hostRead, noteRead, if_neg hread]
      exact .inl ⟨rfl, rfl⟩
  · exact .inl (hostStore_synced_results s a bs)
  · exact .inl (hostLoad_synced_results s a n)
  · exact .inl ⟨rfl, rfl⟩
  · exact .inr (.inr (.inr ⟨rfl, rfl⟩))

/-- The steps that can change `synced` or `results`, with the turn that takes them. -/
theorem step_window_cases (hstep : step s = .next t) :
    (t.synced = s.synced ∧ t.results = s.results) ∨
    (s.status.busy = false ∧ (∃ w, hostNext s (.wr 0x00 w)) ∧ t.synced = false) ∨
    (s.status.busy = false ∧ hostNext s (.rd 0x04) ∧ t.synced = true ∧ t.results = s.results) ∨
    (hostNext s .rst ∧ t.synced = true) := by
  obtain ⟨hnext, -⟩ | ⟨op, ts, hturns, -⟩ := step_cases s
  · have hrest := restUnchanged_step_engine hnext hstep
    exact .inl ⟨hrest.synced, hrest.results⟩
  · have hhead : hostNext s op := by rw [hostNext, hturns, List.head?_cons]
    rw [step_host hturns] at hstep
    obtain hsame | ⟨hidle, ⟨w, rfl⟩, hopen⟩ | ⟨hidle, rfl, hclosed⟩ | ⟨rfl, hclosed⟩ := hostTurn_window_cases hstep
    · exact .inl hsame
    · exact .inr (.inl ⟨hidle, ⟨w, hhead⟩, hopen⟩)
    · exact .inr (.inr (.inl ⟨hidle, hhead, hclosed⟩))
    · exact .inr (.inr (.inr ⟨hhead, hclosed⟩))

end Window

/-- Settles O54: the accepted write and the STATUS read as they are, and the two kinds of turn between them. -/
theorem cmdWriteAndStatusReadSynchronise : Obligations.CmdWriteAndStatusReadSynchronise := by
  refine ⟨fun s w hidle => ?_, fun s t op ts hbusy hturns hop hstep => ?_, fun s => ?_,
    fun s hidle hnext => step_engine_idle hnext hidle⟩
  · exact ⟨acceptCommand s w, hostTurn_wr_cmd_idle hidle w, rfl, rfl, rfl, rfl, rfl, rfl, rfl⟩
  · rw [step_host hturns, dropTurn_of_cons hturns] at hstep
    exact hostTurn_busy (s := { s with turns := ts }) hbusy hop hstep
  · exact ⟨_, hostTurn_rd_status s, by rw [statusWord_getLsbD_zero]⟩

/-- Settles O55: of the steps that can change `synced`, the one that opens and the two that close. -/
theorem onlyStatusReadOrResetClosesTheWindow : Obligations.OnlyStatusReadOrResetClosesTheWindow := by
  intro s t hstep
  obtain ⟨hsame, -⟩ | ⟨hidle, hwrite, hopen⟩ | ⟨hidle, hread, hclosed, -⟩ | ⟨hrst, hclosed⟩ := step_window_cases hstep
  · rw [hsame]
    exact ⟨fun hf ht => absurd (hf.symm.trans ht) (by decide), fun ht hf => absurd (hf.symm.trans ht) (by decide)⟩
  · exact ⟨fun _ ht => absurd (hopen.symm.trans ht) (by decide), fun _ _ => ⟨hidle, hwrite⟩⟩
  · exact ⟨fun _ _ => .inl ⟨hread, hidle⟩, fun _ hf => absurd (hf.symm.trans hclosed) (by decide)⟩
  · exact ⟨fun _ _ => .inr hrst, fun _ hf => absurd (hf.symm.trans hclosed) (by decide)⟩

/-- Settles O57: acceptance notes the open results and the word's ranges; of the other steps only a reset changes them. -/
theorem resultRangesAreOutputRanges : Obligations.ResultRangesAreOutputRanges := by
  refine ⟨fun s t w hidle haccept c => ?_, fun s t hstep => ?_⟩
  · rw [hostTurn_wr_cmd_idle hidle, Host.Outcome.next.injEq] at haccept
    subst haccept
    rw [exists_mem_results_acceptCommand_iff, exists_mem_wordRanges_iff]
  · obtain ⟨-, hsame⟩ | ⟨hidle, hwrite, -⟩ | ⟨-, -, -, hsame⟩ | ⟨hrst, -⟩ := step_window_cases hstep
    · exact .inl hsame
    · exact .inr (.inr ⟨hidle, hwrite⟩)
    · exact .inl hsame
    · exact .inr (.inl hrst)

end Sys2Proof.Machine
end

section
/-! PROOFS. AES-256 is injective on blocks under every key (40_aead_primitives.md R165, R166): each of its layers is. -/

namespace Sys2Proof.Machine

open Function

/-! ### The round layers on columns and states -/

theorem sbox_injective : Injective sbox := by
  obtain ⟨f, hf⟩ := sbox_hasLeftInverse
  exact (show LeftInverse f sbox from hf).injective

theorem subWord_injective : Injective subWord := by
  rintro ⟨a0, a1, a2, a3⟩ ⟨b0, b1, b2, b3⟩ h
  simpa only [subWord, AesWord.mk.injEq, sbox_injective.eq_iff] using h

theorem xorWord_injective (k : AesWord) : Injective (xorWord · k) := by
  rintro ⟨a0, a1, a2, a3⟩ ⟨b0, b1, b2, b3⟩ h
  simpa only [xorWord, AesWord.mk.injEq, BitVec.xor_left_inj] using h

/-- Four MixColumns are the identity: R165's matrix has order 4. -/
theorem mixColumn_iterate_four (w : AesWord) : mixColumn (mixColumn (mixColumn (mixColumn w))) = w := by
  obtain ⟨a0, a1, a2, a3⟩ := w
  rw [mixColumn_mixColumn, mixColumn_mixColumn]
  simp only [xtime_xor, AesWord.mk.injEq]
  generalize xtime (xtime (xtime (xtime a0))) = z0
  generalize xtime (xtime (xtime (xtime a1))) = z1
  generalize xtime (xtime (xtime (xtime a2))) = z2
  generalize xtime (xtime (xtime (xtime a3))) = z3
  refine ⟨?_, ?_, ?_, ?_⟩ <;> simp [BitVec.xor_assoc, BitVec.xor_comm, byte_xor_left_comm]

theorem mixColumn_injective : Injective mixColumn := by
  have h : LeftInverse (fun w => mixColumn (mixColumn (mixColumn w))) mixColumn := mixColumn_iterate_four
  exact h.injective

theorem subBytes_injective : Injective subBytes := by
  rintro ⟨a0, a1, a2, a3⟩ ⟨b0, b1, b2, b3⟩ h
  simpa only [subBytes, AesState.mk.injEq, subWord_injective.eq_iff] using h

theorem mixColumns_injective : Injective mixColumns := by
  rintro ⟨a0, a1, a2, a3⟩ ⟨b0, b1, b2, b3⟩ h
  simpa only [mixColumns, AesState.mk.injEq, mixColumn_injective.eq_iff] using h

theorem addRoundKey_injective (k : AesState) : Injective (addRoundKey k) := by
  rintro ⟨a0, a1, a2, a3⟩ ⟨b0, b1, b2, b3⟩ h
  simpa only [addRoundKey, AesState.mk.injEq, (xorWord_injective _).eq_iff] using h

/-- ShiftRows by three more columns turns each row back (R165). -/
theorem shiftRows_iterate_four (s : AesState) : shiftRows (shiftRows (shiftRows (shiftRows s))) = s := rfl

theorem shiftRows_injective : Injective shiftRows := by
  have h : LeftInverse (fun s => shiftRows (shiftRows (shiftRows s))) shiftRows := shiftRows_iterate_four
  exact h.injective

/-- The rounds under any list of round keys (R166). -/
theorem aesRounds_injective : ∀ ks : List AesState, Injective (aesRounds ks)
  | [] => injective_id
  | [k] => (addRoundKey_injective k).comp (shiftRows_injective.comp subBytes_injective)
  | k :: k' :: ks =>
    (aesRounds_injective (k' :: ks)).comp ((addRoundKey_injective k).comp
      (mixColumns_injective.comp (shiftRows_injective.comp subBytes_injective)))

/-! ### Blocks and their bytes -/

theorem blockByte_getLsbD (X : Block) (k j : Nat) (hj : j < 8) :
    (blockByte X k).getLsbD j = X.getLsbD (8 * (15 - k) + j) := by
  simp [blockByte, hj]

/-- A block is known by its 16 bytes (R170). -/
theorem block_eq_of_blockByte_eq {X Y : Block} (h : ∀ k < 16, blockByte X k = blockByte Y k) : X = Y := by
  refine BitVec.eq_of_getLsbD_eq fun i hi => ?_
  have hk := congrArg (·.getLsbD (i % 8)) (h (15 - i / 8) (by omega))
  simp only [blockByte_getLsbD _ _ _ (Nat.mod_lt i (by decide : 0 < 8))] at hk
  rwa [show 8 * (15 - (15 - i / 8)) + i % 8 = i by omega] at hk

theorem blockBytes_injective : Injective blockBytes := by
  intro X Y h
  refine block_eq_of_blockByte_eq fun k hk => ?_
  exact List.map_inj_left.1 h k (List.mem_range.2 hk)

theorem loadState_injective : Injective loadState := by
  intro X Y h
  simp only [loadState, AesState.mk.injEq, AesWord.mk.injEq] at h
  refine block_eq_of_blockByte_eq fun k hk => ?_
  interval_cases k <;> simp only [h]

theorem foldl_eq_unbe32 (l : List Byte) (n : Nat) :
    l.foldl (fun n b => 256 * n + b.toNat) n = 256 ^ l.length * n + unbe32 l := by
  induction l generalizing n with
  | nil => simp [unbe32]
  | cons b l ih =>
    simp only [unbe32, List.foldl_cons, ih (256 * n + b.toNat), ih (256 * 0 + b.toNat), List.length_cons, pow_succ]
    ring

theorem unbe32_cons (b : Byte) (l : List Byte) : unbe32 (b :: l) = 256 ^ l.length * b.toNat + unbe32 l := by
  rw [unbe32, List.foldl_cons, foldl_eq_unbe32, Nat.mul_zero, Nat.zero_add]

theorem unbe32_lt (l : List Byte) : unbe32 l < 256 ^ l.length := by
  induction l with
  | nil => decide
  | cons b l ih =>
    have hb := b.isLt
    calc unbe32 (b :: l) = 256 ^ l.length * b.toNat + unbe32 l := unbe32_cons b l
      _ < 256 ^ l.length * (b.toNat + 1) := by rw [Nat.mul_add_one]; omega
      _ ≤ 256 ^ l.length * 256 := Nat.mul_le_mul_left _ hb
      _ = 256 ^ (b :: l).length := by rw [List.length_cons, pow_succ]

/-- Byte strings of one length are known by the number they spell. -/
theorem eq_of_unbe32_eq : ∀ {l l' : List Byte}, l.length = l'.length → unbe32 l = unbe32 l' → l = l'
  | [], [], _, _ => rfl
  | b :: l, b' :: l', hlen, h => by
    have hlen' : l.length = l'.length := Nat.succ.inj hlen
    rw [unbe32_cons, unbe32_cons, hlen'] at h
    have hlt : unbe32 l < 256 ^ l'.length := hlen' ▸ unbe32_lt l
    have hlt' := unbe32_lt l'
    have hpos : 0 < 256 ^ l'.length := Nat.pow_pos (by decide)
    have hhead := congrArg (· / 256 ^ l'.length) h
    have htail := congrArg (· % 256 ^ l'.length) h
    simp only [Nat.mul_add_div hpos, Nat.div_eq_of_lt hlt, Nat.div_eq_of_lt hlt', Nat.add_zero] at hhead
    simp only [Nat.mul_add_mod, Nat.mod_eq_of_lt hlt, Nat.mod_eq_of_lt hlt'] at htail
    rw [BitVec.eq_of_toNat_eq hhead, eq_of_unbe32_eq hlen' htail]

theorem blockOfBytes_toNat {l : List Byte} (hlen : l.length = 16) : (blockOfBytes l).toNat = unbe32 l := by
  rw [blockOfBytes, List.take_of_length_le hlen.le, foldl_block_toNat l 0 (by simp [hlen]) (by omega)]
  rfl

/-- Sixteen bytes are known by their block (R170). -/
theorem eq_of_blockOfBytes_eq {l l' : List Byte} (hlen : l.length = 16) (hlen' : l'.length = 16)
    (h : blockOfBytes l = blockOfBytes l') : l = l' := by
  refine eq_of_unbe32_eq (hlen.trans hlen'.symm) ?_
  rw [← blockOfBytes_toNat hlen, ← blockOfBytes_toNat hlen', h]

theorem unloadState_injective : Injective unloadState := by
  rintro ⟨⟨_, _, _, _⟩, ⟨_, _, _, _⟩, ⟨_, _, _, _⟩, ⟨_, _, _, _⟩⟩ ⟨⟨_, _, _, _⟩, ⟨_, _, _, _⟩, ⟨_, _, _, _⟩, ⟨_, _, _, _⟩⟩ h
  have hbytes := eq_of_blockOfBytes_eq rfl rfl h
  simpa only [AesState.mk.injEq, AesWord.mk.injEq, List.cons.injEq, and_true, and_assoc] using hbytes

/-- AES-256 under any key is a composition of injective layers (R166). -/
theorem aes256_injective (K : List Byte) : Injective (aes256 K) := by
  unfold aes256
  cases roundKeys (keySchedule K) with
  | nil => exact injective_id
  | cons k0 ks =>
    exact unloadState_injective.comp ((aesRounds_injective ks).comp ((addRoundKey_injective k0).comp loadState_injective))

/-- Settles O35: AES-256 is a composition of injective layers, whatever the key's length. -/
theorem aesIsAPermutation : Obligations.AesIsAPermutation := fun K _ _ _ h => aes256_injective K h

/-- Settles O34: the vector, evaluated by the kernel. -/
theorem aesKnownAnswer : Obligations.AesKnownAnswer := by
  unfold Obligations.AesKnownAnswer
  decide +kernel

end Sys2Proof.Machine
end

section
/-! PROOFS. GCM opens what it sealed and rejects another tag or IV; GHASH and its product (40_aead_primitives.md R170 to
R178). -/

namespace Sys2Proof.Machine

open Function

/-! ### Sealing and opening -/

theorem gcmAE_fst_length (K iv P : List Byte) : (gcmAE K iv P).1.length = P.length := gctr_length _ _ _

theorem gcmAE_snd (K iv P : List Byte) : (gcmAE K iv P).2 = gcmTag K iv (gcmAE K iv P).1 := rfl

/-- GCM_AD of what GCM_AE sealed (R178(a)). -/
theorem gcmAD_gcmAE (K iv P : List Byte) : gcmAD K iv (gcmAE K iv P).1 (gcmAE K iv P).2 = some P :=
  (if_pos rfl).trans (congrArg some (gctr_gctr K (inc32 (gcmJ0 iv)) P))

theorem gcmAD_of_tag_ne {K iv C T : List Byte} (h : gcmTag K iv C ≠ T) : gcmAD K iv C T = none := if_neg h

/-- The counter block of a 12-byte IV tells the IV (R175). -/
theorem eq_of_gcmJ0_eq {iv iv' : List Byte} (hlen : iv.length = 12) (hlen' : iv'.length = 12)
    (h : gcmJ0 iv = gcmJ0 iv') : iv = iv' :=
  List.append_cancel_right (eq_of_blockOfBytes_eq (by simp [hlen]) (by simp [hlen']) h)

/-- Under one key and ciphertext the tag tells the IV: AES-256 is injective on the counter block (R178(d)). -/
theorem eq_of_gcmTag_eq {K iv iv' C : List Byte} (hlen : iv.length = 12) (hlen' : iv'.length = 12)
    (h : gcmTag K iv C = gcmTag K iv' C) : iv = iv' := by
  have hblock := (BitVec.xor_left_inj _).1 (blockBytes_injective h)
  exact eq_of_gcmJ0_eq hlen hlen' (aes256_injective K hblock)

/-- Settles O36: the keystream undoes itself and the tag is computed over the ciphertext on both sides. -/
theorem gcmOpensWhatItSeals : Obligations.GcmOpensWhatItSeals := fun K iv P =>
  ⟨gcmAD_gcmAE K iv P, gcmAE_fst_length K iv P, gcmTag_length _ _ _⟩

/-- Settles O37: opening compares the tag with the one computed, which tells the IV. -/
theorem changedTagOrIvIsRejected : Obligations.ChangedTagOrIvIsRejected := by
  refine ⟨fun K iv P T htag => gcmAD_of_tag_ne htag.symm, fun K iv iv' P _ hlen hlen' hiv => gcmAD_of_tag_ne ?_⟩
  rw [gcmAE_snd]
  exact fun h => hiv (eq_of_gcmTag_eq hlen' hlen h)

/-! ### The product in GF(2^128) -/

/-- A conditional XOR of one constant, on both parts of a sum. -/
theorem ite_xor_ite (a b : Bool) (X Y K : Block) :
    (if (a ^^ b) = true then X ^^^ Y ^^^ K else X ^^^ Y) =
      (if a = true then X ^^^ K else X) ^^^ (if b = true then Y ^^^ K else Y) := by
  cases a <;> cases b
  · rfl
  · exact BitVec.xor_assoc X Y K
  · show X ^^^ Y ^^^ K = X ^^^ K ^^^ Y
    ac_rfl
  · show X ^^^ Y = X ^^^ K ^^^ (Y ^^^ K)
    rw [show X ^^^ K ^^^ (Y ^^^ K) = X ^^^ Y ^^^ (K ^^^ K) by ac_rfl, BitVec.xor_self, BitVec.xor_zero]

/-- Component-wise XOR of the pair `(Z, V)` of R171. -/
def xorPair (p q : Block × Block) : Block × Block := (p.1 ^^^ q.1, p.2 ^^^ q.2)

/-- One step of the product is linear in the pair `(Z, V)`. -/
theorem gf128Step_xorPair (X : Block) (p q : Block × Block) (i : Nat) :
    gf128Step X (xorPair p q) i = xorPair (gf128Step X p i) (gf128Step X q i) := by
  refine Prod.ext ?_ ?_
  · simp only [gf128Step, xorPair]
    split
    · ac_rfl
    · rfl
  · simp only [gf128Step, xorPair, BitVec.getLsbD_xor, BitVec.ushiftRight_xor_distrib]
    exact ite_xor_ite _ _ _ _ _

theorem foldl_gf128Step_xorPair (X : Block) (l : List Nat) (p q : Block × Block) :
    l.foldl (gf128Step X) (xorPair p q) = xorPair (l.foldl (gf128Step X) p) (l.foldl (gf128Step X) q) := by
  induction l generalizing p q with
  | nil => rfl
  | cons i l ih => rw [List.foldl_cons, gf128Step_xorPair, ih, List.foldl_cons, List.foldl_cons]

/-- The product is linear in its second factor. -/
theorem gf128Mul_xor_right (Z X Y : Block) : gf128Mul Z (X ^^^ Y) = gf128Mul Z X ^^^ gf128Mul Z Y := by
  have hpair : xorPair (0, X) (0, Y) = (0, X ^^^ Y) := Prod.ext (BitVec.xor_self (x := 0)) rfl
  unfold gf128Mul
  rw [← hpair, foldl_gf128Step_xorPair]
  rfl

/-- The sums of two runs with one `V` and the run of the sum of the first factors stay in step. -/
theorem foldl_gf128Step_xor_left (X Y : Block) (l : List Nat) (z z' v : Block) :
    (l.foldl (gf128Step (X ^^^ Y)) (z ^^^ z', v)).1 =
      (l.foldl (gf128Step X) (z, v)).1 ^^^ (l.foldl (gf128Step Y) (z', v)).1 := by
  induction l generalizing z z' v with
  | nil => rfl
  | cons i l ih =>
    have hstep : gf128Step (X ^^^ Y) (z ^^^ z', v) i =
        ((gf128Step X (z, v) i).1 ^^^ (gf128Step Y (z', v) i).1, (gf128Step X (z, v) i).2) := by
      refine Prod.ext ?_ rfl
      simp only [gf128Step, BitVec.getMsbD_xor]
      exact ite_xor_ite _ _ _ _ _
    rw [List.foldl_cons, List.foldl_cons, List.foldl_cons, hstep]
    exact ih _ _ _

/-- The product is linear in its first factor. -/
theorem gf128Mul_xor_left (X Y Z : Block) : gf128Mul (X ^^^ Y) Z = gf128Mul X Z ^^^ gf128Mul Y Z := by
  unfold gf128Mul
  exact foldl_gf128Step_xor_left X Y (List.range 128) 0 0 Z

/-- Steps over clear bits of the first factor leave `Z` alone (R171). -/
theorem foldl_gf128Step_fst_of_clear {X : Block} {l : List Nat} (h : ∀ i ∈ l, X.getMsbD i = false) (zv : Block × Block) :
    (l.foldl (gf128Step X) zv).1 = zv.1 := by
  induction l generalizing zv with
  | nil => rfl
  | cons i l ih =>
    rw [List.foldl_cons, ih fun j hj => h j (List.mem_cons_of_mem i hj)]
    simp [gf128Step, h i List.mem_cons_self]

/-- `80 00 .. 00 · X = X` (R171): only bit 0 of the first factor is set. -/
theorem gf128Mul_one_left (X : Block) : gf128Mul (1#128 <<< 127) X = X := by
  have hbit (j : Nat) : (1#128 <<< 127).getMsbD j = decide (j = 0) := getMsbD_one_shift 0 j (by decide)
  unfold gf128Mul
  rw [List.range_succ_eq_map, List.foldl_cons, foldl_gf128Step_fst_of_clear]
  · simp only [gf128Step, hbit, decide_true, if_true]
    exact BitVec.zero_xor
  · intro i hi
    obtain ⟨j, -, rfl⟩ := List.mem_map.1 hi
    rw [hbit, decide_eq_false (Nat.succ_ne_zero j)]

/-- Settles O39: the product is linear in each factor, and its first step with one set bit copies the other factor. -/
theorem ghashProductIsBilinear : Obligations.GhashProductIsBilinear := fun X Y Z =>
  ⟨gf128Mul_xor_left X Y Z, gf128Mul_xor_right Z X Y, gf128Mul_one_left X⟩

/-! ### GHASH -/

/-- One step of GHASH: absorb a block (R174). -/
def ghashStep (H Y B : Block) : Block := gf128Mul (Y ^^^ B) H

theorem ghash_eq (H : Block) (X : List Byte) : ghash H X = (blocksOf (X.length / 16) X).foldl (ghashStep H) 0 := rfl

section Ghash
variable {H : Block} (hH : ∀ X : Block, gf128Mul X H = 0 → X = 0)
include hH

/-- A product that sends only 0 to 0 is injective, being linear (R171). -/
theorem gf128Mul_left_injective : Injective (gf128Mul · H) := by
  intro X Y h
  refine BitVec.xor_eq_zero_iff.1 (hH _ ?_)
  rw [gf128Mul_xor_left, show gf128Mul X H = gf128Mul Y H from h, BitVec.xor_self]
  rfl

theorem ghashStep_injective_state (B : Block) : Injective (ghashStep H · B) := by
  intro Y Y' h
  exact (BitVec.xor_left_inj B).1 (gf128Mul_left_injective hH h)

theorem ghashStep_injective_block (Y : Block) : Injective (ghashStep H Y) := by
  intro B B' h
  exact (BitVec.xor_right_inj Y).1 (gf128Mul_left_injective hH h)

theorem foldl_ghashStep_injective (l : List Block) : Injective fun Y => l.foldl (ghashStep H) Y := by
  induction l with
  | nil => exact injective_id
  | cons B l ih => exact ih.comp (ghashStep_injective_state hH B)

end Ghash

theorem blocksOf_append {n : Nat} {X : List Byte} (m : Nat) (Y : List Byte) (hlen : X.length = 16 * n) :
    blocksOf (n + m) (X ++ Y) = blocksOf n X ++ blocksOf m Y := by
  induction n generalizing X with
  | zero => rw [List.length_eq_zero_iff.1 hlen, Nat.zero_add]; rfl
  | succ n ih =>
    have htake : (X ++ Y).take 16 = X.take 16 := List.take_append_of_le_length (by omega)
    have hdrop : (X ++ Y).drop 16 = X.drop 16 ++ Y := List.drop_append_of_le_length (by omega)
    rw [show n + 1 + m = n + m + 1 by omega, blocksOf, blocksOf, hdrop, ih (by simp; omega), List.cons_append,
      blockOfBytes, blockOfBytes, htake]

/-- The blocks of an input around one of its blocks (R174). -/
theorem blocksOf_around {front b back : List Byte} (hfront : front.length % 16 = 0) (hb : b.length = 16) :
    blocksOf ((front ++ b ++ back).length / 16) (front ++ b ++ back) =
      blocksOf (front.length / 16) front ++ blockOfBytes b :: blocksOf (back.length / 16) back := by
  have hcount : (front ++ b ++ back).length / 16 = front.length / 16 + (1 + back.length / 16) := by
    simp only [List.length_append]
    omega
  rw [hcount, List.append_assoc, blocksOf_append _ _ (by omega), blocksOf_append (n := 1) _ _ (by omega)]
  rfl

/-- Settles O38: absorbing a block is injective in the block, and in the state what follows absorbs. -/
theorem ghashSeesOneChangedBlock : Obligations.GhashSeesOneChangedBlock := by
  intro H front b b' back hH hfront hb hb' _ hne h
  rw [ghash_eq, ghash_eq, blocksOf_around hfront hb, blocksOf_around hfront hb', List.foldl_append, List.foldl_append,
    List.foldl_cons, List.foldl_cons] at h
  have hblock := ghashStep_injective_block hH _ (foldl_ghashStep_injective hH _ h)
  exact hne (eq_of_blockOfBytes_eq hb hb' hblock)

end Sys2Proof.Machine
end

section
/-! PROOFS. What a command that succeeds has written, and the cipher commands as inverses of each other
(20_memory.md section 4, 41_cipher_commands.md R204). -/

namespace Sys2Proof.Machine

section Success
variable {i : Instr} {s t : State}

/-- ERR 0 after a command means that its rule answered an effect, which the completion step applied (R270). -/
theorem exists_effect_of_err_eq_zero (hexec : exec i s = .next t) (herr : t.status.err = 0) :
    ∃ f, verdictOf i s = .ok f ∧ t = completeOk s f := by
  obtain rfl := exec_next_iff.1 hexec
  cases hv : verdictOf i s with
  | ok f => exact ⟨f, rfl, rfl⟩
  | error e =>
    rw [hv] at herr
    exact absurd herr (errorCode_ne_zero e)

/-- A command that succeeds writes inside its output ranges only (R91). -/
theorem memUnchangedOutside_of_err_eq_zero (hwf : memWf s.mem = true) (hexec : exec i s = .next t)
    (herr : t.status.err = 0) : memUnchangedOutside (outputRanges i s) s t := by
  obtain ⟨f, hv, -⟩ := exists_effect_of_err_eq_zero hexec herr
  obtain ⟨t', hexec', hsucc, -⟩ := exec_succeededWith hwf hv
  obtain rfl : t = t' := by simpa [hexec] using hexec'
  exact hsucc.frame

end Success

/-- Settles O13: success writes inside the output ranges, failure is `fail E`. -/
theorem commandsWriteOnlyOutputRanges : Obligations.CommandsWriteOnlyOutputRanges := fun _ _ _ hwf hexec =>
  ⟨memUnchangedOutside_of_err_eq_zero hwf hexec, fun herr => (failedWith_of_err_ne_zero hexec herr).mem⟩

/-! ### Envelopes -/

/-- Reading a range disjoint from the one just filled (R89). -/
theorem memRead_memWrite_disjoint {m : Memory} {r q : Range} {bs : List Byte} (hwf : memWf m = true)
    (hlen : bs.length = r.len) (hdisj : rangesDisjoint r q) :
    memRead (memWrite m r.base bs) q.base q.len = memRead m q.base q.len :=
  memRead_memWrite_other hwf (by rw [hlen]; omega)

/-- Opening an envelope with the key that sealed it (R130, R131, R178(a)). -/
theorem openEnvelope_sealEnvelope {K iv P : List Byte} (hiv : iv.length = 12) :
    openEnvelope K (sealEnvelope K iv P) = some P :=
  (openEnvelope_parts K iv _ _ hiv (gcmTag_length _ _ _)).trans (gcmAD_gcmAE K iv P)

section Open
variable {s t u : State} {K iv P : List Byte}

/-- A command whose rule comes down to opening its source succeeds on an envelope sealed under the same key. -/
theorem exec_opens_sealed {i : Instr} (hwf : memWf u.mem = true) (hout : outputRanges i u = [openedRange u])
    (hv : verdictOf i u = openVerdict u K) (hiv : iv.length = 12) (hlen : opNat u .srcLen = 28 + P.length)
    (henv : memRead u.mem (opNat u .srcAddr) (opNat u .srcLen) = sealEnvelope K iv P) :
    ∃ v, exec i u = .next v ∧ v.status.err = 0 ∧ v.outLen.toNat = P.length ∧
      memRead v.mem (opNat u .dstAddr) P.length = P := by
  have h28 : 28 ≤ opNat u .srcLen := hlen ▸ Nat.le_add_right 28 _
  have hopen : openedSource u K = some P := by
    rw [← openEnvelope_source h28, readRange, srcRange, henv, openEnvelope_sealEnvelope hiv]
  obtain ⟨v, hexec, hsucc, hread⟩ := exec_succeededWith_of_opened hwf hout hv h28 hopen
  have hsub : opNat u .srcLen - 28 = P.length := by omega
  exact ⟨v, hexec, by rw [hsucc.status], hsucc.outLen.trans hsub, hsub ▸ hread⟩

/-- DECRYPTK with the key at SEC_ADDR, once an envelope sealed under it is the source. -/
theorem exec_decryptk_opens_sealed (hwf : memWf u.mem = true) (hgate : u.gate.en = false ∨ u.gate.verified = true)
    (hkey : opNat u .secLen = 32) (hr : decryptRangeOK u) (hiv : iv.length = 12)
    (hlen : opNat u .srcLen = 28 + P.length)
    (henv : memRead u.mem (opNat u .srcAddr) (opNat u .srcLen) =
      sealEnvelope (memRead u.mem (opNat u .secAddr) 32) iv P) :
    ∃ v, exec .decryptk u = .next v ∧ v.status.err = 0 ∧ v.outLen.toNat = P.length ∧
      memRead v.mem (opNat u .dstAddr) P.length = P := by
  have hv := decryptkVerdict_of_checked (gateShut_eq_false hgate) hkey hr
  rw [if_neg (by omega)] at hv
  exact exec_opens_sealed (i := .decryptk) hwf rfl hv hiv hlen henv

/-- What ENCRYPT leaves when it succeeds: its checks passed and the envelope stands at DST_ADDR (R200). -/
theorem encrypt_succeeded (hwf : memWf s.mem = true) (hexec : exec .encrypt s = .next t) (herr : t.status.err = 0) :
    encryptRangeOK s ∧ secretOK s.params.secretLenUnit (readRange s (secRange s)) = true ∧
    t.mem = memWrite s.mem (opNat s .dstAddr)
      (sealEnvelope (secretKey s) (drawBytes s 0 12) (readRange s (srcRange s))) ∧
    memRead t.mem (opNat s .dstAddr) (28 + opNat s .srcLen) =
      sealEnvelope (secretKey s) (drawBytes s 0 12) (readRange s (srcRange s)) := by
  obtain ⟨f, hv, rfl⟩ := exists_effect_of_err_eq_zero hexec herr
  obtain ⟨hr, hs, rfl⟩ := encryptVerdict_ok_iff.1 hv
  exact ⟨hr, hs, rfl, memRead_memWrite_of_length hwf (sealEnvelope_source_length s _ 0)⟩

end Open

/-- Settles O21: ENCRYPT's write is disjoint from the secret, so DECRYPT derives the key that sealed. -/
theorem encryptThenDecryptRoundTrip : Obligations.EncryptThenDecryptRoundTrip := by
  intro s t u hwf hexec herr hmem hparams hgate hsrc hlen hsec hseclen hr
  obtain ⟨⟨-, -, -, -, -, hdisj⟩, hs, htmem, henv⟩ := encrypt_succeeded hwf hexec herr
  have htparams : t.params = s.params := exec_next_iff.1 hexec ▸ complete_params s _
  have hsecret : readRange u (secRange u) = readRange s (secRange s) := by
    rw [readRange, readRange, secRange, secRange, hsec, hseclen, hmem, htmem]
    exact memRead_memWrite_disjoint (r := sealedRange s) (q := secRange s) hwf (sealEnvelope_source_length s _ 0) hdisj
  have hkey : secretKey u = secretKey s := by rw [secretKey, secretKey, hsecret]
  have hv := decryptVerdict_of_checked (gateShut_eq_false hgate) hr (by rwa [hsecret, hparams, htparams])
  rw [if_neg (by omega), hkey] at hv
  have hwfu : memWf u.mem = true := by rw [hmem, htmem]; exact memWrite_wf hwf
  have hopened := exec_opens_sealed (i := .decrypt) (P := readRange s (srcRange s)) hwfu rfl hv (drawBytes_length s 0 12)
    (by rw [hlen, readRange_length, srcRange]) (by rw [hsrc, hlen, hmem, henv])
  rwa [readRange_length] at hopened

/-- Settles O22: GENENC's two writes are disjoint, so the envelope and its key both stand. -/
theorem genencThenDecryptkRoundTrip : Obligations.GenencThenDecryptkRoundTrip := by
  intro s t u hwf hexec herr hmem hparams hgate hsrc hlen hsec hseclen hr
  obtain ⟨f, hv, rfl⟩ := exists_effect_of_err_eq_zero hexec herr
  obtain ⟨⟨hvsrc, hvdst, hvkey, h32, hdsrc, hksrc, hdisj⟩, rfl⟩ := genencVerdict_ok_iff.1 hv
  obtain ⟨t', hexec', -, hkey, henv⟩ :=
    (genencFollowsItsRule s).2 hwf hvsrc hvdst hvkey h32 hdsrc hksrc hdisj
  obtain rfl := Host.Outcome.next.inj (hexec'.symm.trans hexec)
  have hwfu : memWf u.mem = true := by rw [hmem]; exact memWriteAll_wf hwf
  have hopened := exec_decryptk_opens_sealed (P := readRange s (srcRange s)) hwfu hgate hseclen hr
    (drawBytes_length s 32 12) (by rw [hlen, readRange_length, srcRange])
    (by rw [hsrc, hlen, hsec, hmem, hkey, henv]; rfl)
  rwa [readRange_length] at hopened

/-- Settles O23: the derived key is the key ENCRYPT sealed under. -/
theorem encryptThenDecryptkRoundTrip : Obligations.EncryptThenDecryptkRoundTrip := by
  intro s t u hwf hwfu hexec herr hgate hlen hseclen hsrc hkey hr
  obtain ⟨-, -, -, henv⟩ := encrypt_succeeded hwf hexec herr
  have hopened := exec_decryptk_opens_sealed (P := readRange s (srcRange s)) hwfu hgate hseclen hr
    (drawBytes_length s 0 12) (by rw [hlen, readRange_length, srcRange])
    (by rw [hlen, hsrc, hkey, henv]; rfl)
  rwa [readRange_length] at hopened

end Sys2Proof.Machine
end

section
/-! PROOFS. Embedding into a pixel buffer and reading back (42_bitpack_framing.md R229). -/

namespace Sys2Proof.Machine

/-! ### What was embedded is read back -/

/-- Reading where bits were embedded gives those bits (R229(a)). -/
theorem readBits_embedBits {px : List Byte} {bs : List Bool} {a n : Nat} (hfit : ∀ i < bs.length, off i < px.length)
    (hused : a + n ≤ bs.length) : readBits (embedBits px bs) a n = (bs.drop a).take n := by
  refine List.ext_getElem (by simp; omega) fun k hk _ => ?_
  have hlt : a + k < bs.length := by
    rw [readBits_length] at hk
    omega
  have hoff : off (a + k) < (embedBits px bs).length := by
    rw [embedBits_length]
    exact hfit _ hlt
  rw [readBits_getElem, List.getD_eq_getElem _ _ hoff, embedBits_getElem, embedByte_off _ hlt, setLowBit_getLsbD_zero,
    List.getElem_take, List.getElem_drop]

theorem bits_frame (p : List Byte) : bits (frame p) = bits (be32 p.length) ++ bits p := bits_append _ _

theorem bits_frame_length (p : List Byte) : (bits (frame p)).length = totalBits p.length := by
  rw [bits_length, ← totalBits_eq]

section RoundTrip
variable {px p : List Byte} {W H : Nat} (hpx : px.length = imageBytes W H) (hcap : totalBits p.length ≤ capacity W H)
include hpx hcap

/-- A frame that fits lies on subchannels of the buffer (R223, R224). -/
theorem off_lt_of_frame_fits : ∀ i < (bits (frame p)).length, off i < px.length := by
  intro i hi
  rw [bits_frame_length] at hi
  rw [hpx]
  exact off_lt_of_lt_capacity (hi.trans_le hcap)

/-- Every bit of the frame is read back (R229(a)). -/
theorem readBits_embedBits_frame :
    readBits (embedBits px (bits (frame p))) 0 (totalBits p.length) = bits (frame p) := by
  rw [readBits_embedBits (off_lt_of_frame_fits hpx hcap) (by rw [bits_frame_length, Nat.zero_add]), List.drop_zero,
    List.take_of_length_le (bits_frame_length p).le]

/-- The length prefix is read back (R229(b)). -/
theorem prefixOf_embedBits_frame (hlen : p.length < 2 ^ 32) :
    prefixOf (embedBits px (bits (frame p))) = p.length := by
  have hused : 0 + 32 ≤ (bits (frame p)).length := by
    rw [bits_frame_length, totalBits]
    omega
  rw [prefixOf, readBits_embedBits (off_lt_of_frame_fits hpx hcap) hused, List.drop_zero, bits_frame,
    List.take_left' (by simp), bytes_bits, unbe32_be32 hlen]

/-- The payload is read back (R229(b)). -/
theorem payloadOf_embedBits_frame : payloadOf (embedBits px (bits (frame p))) p.length = p := by
  have hused : 32 + 8 * p.length ≤ (bits (frame p)).length := (bits_frame_length p).ge
  rw [payloadOf, readBits_embedBits (off_lt_of_frame_fits hpx hcap) hused, bits_frame, List.drop_left' (by simp),
    List.take_of_length_le (bits_length p).le, bytes_bits]

end RoundTrip

/-- Settles O31: the frame's bits, its first four bytes and the rest. -/
theorem stegoRoundTripOnBuffers : Obligations.StegoRoundTripOnBuffers := by
  intro px p W H hpx hcap hlen
  refine ⟨readBits_embedBits_frame hpx hcap, prefixOf_embedBits_frame hpx hcap hlen, ?_⟩
  rw [unframe, prefixOf_embedBits_frame hpx hcap hlen]
  exact payloadOf_embedBits_frame hpx hcap

/-! ### What embedding changes -/

theorem setLowBit_xor_self : ∀ (b : Byte) (v : Bool), setLowBit b v ^^^ b = 0#8 ∨ setLowBit b v ^^^ b = 1#8 := by
  decide +kernel

/-- Setting bit 0 keeps bits 7:1 and nothing else of the old byte (R225). -/
theorem setLowBit_eq_shift : ∀ (b : Byte) (v : Bool),
    setLowBit b v = (b >>> 1) <<< 1 ||| (BitVec.ofBool v).setWidth 8 := by
  decide +kernel

section Embedding
variable {px qx : List Byte} {bs : List Bool} {o : Nat} {x y : Byte}

/-- A byte of the buffer carries an embedded bit, or is left alone (R225). -/
theorem embedByte_cases (bs : List Bool) (o : Nat) :
    (∃ v, ∀ x, embedByte bs o x = setLowBit x v) ∨
    ((∀ i, i < bs.length → o ≠ off i) ∧ ∀ x, embedByte bs o x = x) := by
  by_cases hused : ∃ i, ∃ h : i < bs.length, o = off i
  · obtain ⟨i, hi, rfl⟩ := hused
    exact .inl ⟨bs[i], fun x => embedByte_off x hi⟩
  · have hunused : ∀ i, i < bs.length → o ≠ off i := fun i hi ho => hused ⟨i, hi, ho⟩
    exact .inr ⟨hunused, fun x => embedByte_unused x hunused⟩

theorem embedByte_xor_self (bs : List Bool) (o : Nat) (x : Byte) :
    embedByte bs o x ^^^ x = 0#8 ∨ embedByte bs o x ^^^ x = 1#8 := by
  obtain ⟨v, hset⟩ | ⟨-, hkeep⟩ := embedByte_cases bs o
  · rw [hset]
    exact setLowBit_xor_self x v
  · rw [hkeep, BitVec.xor_self]
    exact .inl rfl

/-- Embedding into a byte a second time changes nothing (R229(d)). -/
theorem embedByte_embedByte (bs : List Bool) (o : Nat) (x : Byte) :
    embedByte bs o (embedByte bs o x) = embedByte bs o x := by
  obtain ⟨v, hset⟩ | ⟨-, hkeep⟩ := embedByte_cases bs o
  · rw [hset, hset, setLowBit_setLowBit]
  · rw [hkeep]

/-- What is embedded into a byte depends on bits 7:1 of a used one and on the whole of an unused one (R229(e)). -/
theorem embedByte_congr (hhigh : x >>> 1 = y >>> 1) (hunused : (∀ i, i < bs.length → o ≠ off i) → x = y) :
    embedByte bs o x = embedByte bs o y := by
  obtain ⟨v, hset⟩ | ⟨hno, -⟩ := embedByte_cases bs o
  · rw [hset, hset, setLowBit_eq_shift, setLowBit_eq_shift, hhigh]
  · rw [hunused hno]

theorem embedBits_embedBits (px : List Byte) (bs : List Bool) :
    embedBits (embedBits px bs) bs = embedBits px bs := by
  refine List.ext_getElem? fun o => ?_
  have hid : embedByte bs o ∘ embedByte bs o = embedByte bs o := funext (embedByte_embedByte bs o)
  rw [embedBits_getElem?, embedBits_getElem?, Option.map_map, hid]

theorem embedBits_congr (hlen : qx.length = px.length)
    (h : ∀ (o : Nat) (x y : Byte), px[o]? = some x → qx[o]? = some y → embedByte bs o x = embedByte bs o y) :
    embedBits qx bs = embedBits px bs := by
  refine List.ext_getElem (by simp [hlen]) fun o hq hp => ?_
  rw [embedBits_length] at hq hp
  rw [embedBits_getElem, embedBits_getElem,
    h o px[o] qx[o] (List.getElem?_eq_getElem hp) (List.getElem?_eq_getElem hq)]

end Embedding

/-- Settles O32: each clause byte by byte, where a byte has its bit 0 set or is left alone. -/
theorem embeddingTouchesOnlyLowBits : Obligations.EmbeddingTouchesOnlyLowBits := by
  intro px b
  refine ⟨fun o x y hx hy => ?_, embedBits_embedBits px b, fun qx hlen hagree => embedBits_congr hlen ?_⟩
  · rw [embedBits_getElem?, hx, Option.map_some, Option.some.injEq] at hy
    subst hy
    refine ⟨embedByte_xor_self b o x, fun hunused => ?_⟩
    rw [embedByte_unused x hunused, BitVec.xor_self]
  · intro o x y hx hy
    obtain ⟨hhigh, hunused⟩ := hagree o x y hx hy
    exact embedByte_congr hhigh hunused

end Sys2Proof.Machine
end

section
/-! PROOFS. The stego command EMBED step by step, and EXTRACT of what it wrote or of an image with other dimensions
(43_stego_commands.md R240, R242). -/

namespace Sys2Proof.Machine

/-! ### One equation per branch of EMBED's rule -/

section Embed
variable {s : State}

theorem embedVerdict_of_format (hf : opNat s .imgFmt ≠ 0) : embedVerdict s = .error .unsupportedImageFormat :=
  if_pos (mt opNat_eq_zero_iff.2 hf)

theorem embedVerdict_of_badRange (hf : opNat s .imgFmt = 0) (hr : ¬ embedRangeOK s) :
    embedVerdict s = .error .badOperand := by
  rw [embedVerdict, if_neg (not_not_intro (opNat_eq_zero_iff.1 hf)), if_pos hr]

theorem embedVerdict_of_tooLarge (hf : opNat s .imgFmt = 0) (hr : embedRangeOK s)
    (hcap : imgCapacity s < totalBits (opNat s .srcLen)) : embedVerdict s = .error .payloadTooLarge := by
  rw [embedVerdict, if_neg (not_not_intro (opNat_eq_zero_iff.1 hf)), if_neg (not_not_intro hr), if_pos hcap]

/-- Past every check, EMBED succeeds and the whole output image stands at IMG_OUT_ADDR (R240 step 4). -/
theorem exec_embed_succeededWith (hwf : memWf s.mem = true) (hf : opNat s .imgFmt = 0) (hr : embedRangeOK s)
    (hcap : totalBits (opNat s .srcLen) ≤ imgCapacity s) :
    ∃ t, exec .embed s = .next t ∧ SucceededWith (imgBytes s) 0 [imgOutRange s] s t ∧
      memRead t.mem (opNat s .imgOutAddr) (imgBytes s) = embeddedImage s := by
  obtain ⟨t, hexec, hsucc, hmem⟩ := exec_succeededWith (i := .embed) hwf
    (embedVerdict_ok_iff.2 ⟨opNat_eq_zero_iff.1 hf, hr, hcap, rfl⟩)
  refine ⟨t, hexec, hsucc, ?_⟩
  rw [hmem, memWriteAll_cons, memWriteAll_nil]
  exact memRead_memWrite_of_length hwf (embeddedImage_length s)

end Embed

/-- Settles O24: each branch of EMBED's rule, and the one write read back. -/
theorem embedFollowsItsRule : Obligations.EmbedFollowsItsRule := by
  intro s
  exact ⟨fun hf => exec_failedWith (i := .embed) (embedVerdict_of_format hf),
    fun hf hr => exec_failedWith (i := .embed) (embedVerdict_of_badRange hf hr),
    fun hf hr hcap => exec_failedWith (i := .embed) (embedVerdict_of_tooLarge hf hr hcap),
    fun hwf hf hsrc himg hout h32 hdisj hplace hcap =>
      exec_embed_succeededWith hwf hf ⟨hsrc, himg, hout, h32, hdisj, hplace⟩ hcap⟩

/-- The image EMBED makes carries its payload (R229(b)). -/
theorem prefixOf_and_payloadOf_embeddedImage {s : State} (hcap : totalBits (opNat s .srcLen) ≤ imgCapacity s) :
    prefixOf (embeddedImage s) = opNat s .srcLen ∧
    payloadOf (embeddedImage s) (opNat s .srcLen) = readRange s (srcRange s) := by
  have hpx : (readRange s (imgRange s)).length = imageBytes (opNat s .imgW) (opNat s .imgH) := readRange_length s _
  have hp : (readRange s (srcRange s)).length = opNat s .srcLen := readRange_length s _
  rw [← hp] at hcap ⊢
  exact ⟨prefixOf_embedBits_frame hpx hcap (by rw [hp]; exact (s.reg .srcLen).isLt), payloadOf_embedBits_frame hpx hcap⟩

/-- Settles O26: the buffer EXTRACT reads is the image EMBED wrote, with as many pixels. -/
theorem embedThenExtractRoundTrip : Obligations.EmbedThenExtractRoundTrip := by
  intro s t u hwf hexec herr hmem hparams hgate haddr hw hh hf hd
  obtain ⟨f, hv, rfl⟩ := exists_effect_of_err_eq_zero hexec herr
  obtain ⟨-, ⟨-, -, hvalid, -⟩, hcap, rfl⟩ := embedVerdict_ok_iff.1 hv
  have hrange : imgRange u = imgOutRange s := by rw [imgRange, imgOutRange, imgBytes, imgBytes, haddr, hw, hh]
  have himage : readRange u (imgRange u) = embeddedImage s := by
    rw [readRange, hrange, hmem]
    exact memRead_memWrite_of_length hwf (embeddedImage_length s)
  obtain ⟨hprefix, hpayload⟩ := prefixOf_and_payloadOf_embeddedImage hcap
  have hlen : extractLen u = opNat s .srcLen := by rw [extractLen, himage, hprefix]
  have hcapu : imgCapacity u = imgCapacity s := by rw [imgCapacity, imgCapacity, hw, hh]
  have hwfu : memWf u.mem = true := by rw [hmem]; exact memWriteAll_wf hwf
  have hi : rangeValid u (imgRange u) := by rw [rangeValid, hrange, hparams]; exact hvalid
  obtain ⟨v, hexecv, hsucc, hread⟩ := exec_extract_succeededWith hwfu (gateShut_eq_false hgate) hf hi
    (by rwa [hlen, hcapu]) (by rwa [hlen])
  rw [hlen] at hsucc hread
  exact ⟨v, hexecv, by rw [hsucc.status], hsucc.outLen, by rw [hread, himage, hpayload]; rfl⟩

/-! ### EXTRACT sees the pixels it reads, not the dimensions -/

section Dimensions
variable {m : Memory} {a W H W' H' : Nat}

/-- Bits below two capacities are the same in both buffers at one address (R224). -/
theorem readBits_memRead_eq {start count : Nat} (h : start + count ≤ capacity W H)
    (h' : start + count ≤ capacity W' H') :
    readBits (memRead m a (imageBytes W H)) start count = readBits (memRead m a (imageBytes W' H')) start count := by
  refine List.ext_getElem (by simp) fun k hk _ => ?_
  rw [readBits_length] at hk
  have hoff : off (start + k) < imageBytes W H := off_lt_of_lt_capacity (by omega)
  have hoff' : off (start + k) < imageBytes W' H' := off_lt_of_lt_capacity (by omega)
  rw [readBits_getElem, readBits_getElem, List.getD_eq_getElem _ _ (by simpa using hoff),
    List.getD_eq_getElem _ _ (by simpa using hoff'), memRead_getElem, memRead_getElem]

theorem prefixOf_memRead_eq (h : 32 ≤ capacity W H) (h' : 32 ≤ capacity W' H') :
    prefixOf (memRead m a (imageBytes W H)) = prefixOf (memRead m a (imageBytes W' H')) := by
  rw [prefixOf, prefixOf, readBits_memRead_eq (start := 0) (count := 32) h h']

theorem payloadOf_memRead_eq {n : Nat} (h : totalBits n ≤ capacity W H) (h' : totalBits n ≤ capacity W' H') :
    payloadOf (memRead m a (imageBytes W H)) n = payloadOf (memRead m a (imageBytes W' H')) n := by
  rw [payloadOf, payloadOf, readBits_memRead_eq h h']

variable {s u : State} (hmem : u.mem = s.mem) (haddr : opNat u .imgAddr = opNat s .imgAddr)
include hmem haddr

theorem readRange_imgRange_eq : readRange u (imgRange u) =
    memRead s.mem (opNat s .imgAddr) (imageBytes (opNat u .imgW) (opNat u .imgH)) := by
  rw [readRange, imgRange, hmem, haddr, imgBytes]

/-- Two images at one address that cover the prefix have one prefix (R242(b)). -/
theorem extractLen_eq_of_imgAddr_eq (h32 : 32 ≤ imgCapacity s) (h32u : 32 ≤ imgCapacity u) :
    extractLen u = extractLen s := by
  rw [extractLen, readRange_imgRange_eq hmem haddr]
  exact prefixOf_memRead_eq h32u h32

/-- Two images at one address that cover the payload have one payload (R242(b)). -/
theorem payloadOf_eq_of_imgAddr_eq {n : Nat} (hcap : totalBits n ≤ imgCapacity s) (hcapu : totalBits n ≤ imgCapacity u) :
    payloadOf (readRange u (imgRange u)) n = payloadOf (readRange s (imgRange s)) n := by
  rw [readRange_imgRange_eq hmem haddr]
  exact payloadOf_memRead_eq hcapu hcap

end Dimensions

/-- Settles O27: pixels that still cover the payload give EXTRACT the same effect, too few a prefix beyond capacity. -/
theorem extractSeesThePixelCountOnly : Obligations.ExtractSeesThePixelCountOnly := by
  intro s t u hexec herr hmem hparams hgate haddr hdst hf hi
  obtain ⟨f, hv, rfl⟩ := exists_effect_of_err_eq_zero hexec herr
  obtain ⟨-, -, -, h32, hcap, -, rfl⟩ := extractVerdict_ok_iff.1 hv
  obtain ⟨-, -, hlt⟩ := verdict_writes hv
  have hout : (BitVec.ofNat 32 (extractLen s)).toNat = extractLen s := by
    rw [BitVec.toNat_ofNat, Nat.mod_eq_of_lt hlt]
  have hg := gateShut_eq_false hgate
  simp only [completeOk_outLen, hout]
  refine ⟨fun hcapu hd => ?_, fun hsmall => ?_⟩
  · have h32u : 32 ≤ imgCapacity u := (Nat.le_add_right 32 _).trans hcapu
    have hlen := extractLen_eq_of_imgAddr_eq hmem haddr h32 h32u
    have hvu := extractVerdict_ok_iff.2
      ⟨hg, opNat_eq_zero_iff.1 hf, hi, h32u, by rwa [hlen], by rwa [hlen], rfl⟩
    rw [hlen, hdst, payloadOf_eq_of_imgAddr_eq hmem haddr hcap hcapu] at hvu
    refine ⟨_, exec_eq_complete .extract u, ?_⟩
    rw [verdictOf, hvu]
    exact ⟨rfl, rfl, congrArg (memWriteAll · _) hmem⟩
  · refine exec_failedWith (i := .extract) (extractVerdict_of_badPrefix hg hf hi ?_)
    by_cases h32u : 32 ≤ imgCapacity u
    · rw [extractLen_eq_of_imgAddr_eq hmem haddr h32 h32u]
      exact hsmall
    · exact Nat.lt_add_right _ (Nat.not_le.1 h32u)

end Sys2Proof.Machine
end
